-- ==== Sys2Proof/Word.lean ====
section
/-! DEFINITION. The word types of the CORE (00_scope.md R8, R9; 10_state.md R20): plain names for the widths the
spec gives. All values are unsigned (R9). -/

namespace Sys2Proof

/-- A byte: a general register, a timer, a memory cell, the immediate `nn`. -/
abbrev Byte := BitVec 8

/-- A 16-bit word: an instruction, `pc`, `I`, a return address. -/
abbrev Word := BitVec 16

/-- The 12-bit immediate `nnn`, an absolute byte address (30_encoding.md R72). -/
abbrev Addr := BitVec 12

/-- A 4-bit field of an instruction word that is not a register number (a sub-opcode, the row count `n`). -/
abbrev Nibble := BitVec 4

/-- The number of a general register, 0 to 15 (10_state.md R21). -/
abbrev Reg := Fin 16

/-- A key code: 0 is "no key", 1 to 16 a key (60_exceptions.md R184, which asks a model to type it so). -/
abbrev Key := Fin 17

end Sys2Proof
end

