-- ==== Sys2Proof/Syntax.lean ====
section
/-! DEFINITION. The 34 instructions of 30_encoding.md R74, one constructor a row of spec/opcode_table.json, with the
operands of R72 in the order of the encoding. -/

namespace Sys2Proof

/-- An instruction with its operands. `x` and `y` are register numbers, `nn` an 8-bit and `nnn` a 12-bit unsigned
immediate, `n` the row count of a sprite. -/
inductive Instr where
  /-- `00E0` -/
  | cls
  /-- `00EE` -/
  | ret
  /-- `1nnn` -/
  | jp (nnn : Addr)
  /-- `2nnn` -/
  | call (nnn : Addr)
  /-- `3xnn` -/
  | seImm (x : Reg) (nn : Byte)
  /-- `4xnn` -/
  | sneImm (x : Reg) (nn : Byte)
  /-- `5xy0` -/
  | seReg (x y : Reg)
  /-- `6xnn` -/
  | ldImm (x : Reg) (nn : Byte)
  /-- `7xnn` -/
  | addImm (x : Reg) (nn : Byte)
  /-- `8xy0` -/
  | ldReg (x y : Reg)
  /-- `8xy1` -/
  | or (x y : Reg)
  /-- `8xy2` -/
  | and (x y : Reg)
  /-- `8xy3` -/
  | xor (x y : Reg)
  /-- `8xy4` -/
  | addReg (x y : Reg)
  /-- `8xy5` -/
  | sub (x y : Reg)
  /-- `8xy6`: `y` is decoded and not used (R78) -/
  | shr (x y : Reg)
  /-- `8xy7` -/
  | subn (x y : Reg)
  /-- `8xyE`: `y` is decoded and not used (R78) -/
  | shl (x y : Reg)
  /-- `9xy0` -/
  | sneReg (x y : Reg)
  /-- `Annn` -/
  | ldI (nnn : Addr)
  /-- `Bnnn` -/
  | jpV0 (nnn : Addr)
  /-- `Cxnn` -/
  | rnd (x : Reg) (nn : Byte)
  /-- `Dxyn` -/
  | drw (x y : Reg) (n : Nibble)
  /-- `Ex9E` -/
  | skp (x : Reg)
  /-- `ExA1` -/
  | sknp (x : Reg)
  /-- `Fx07` -/
  | ldVxDt (x : Reg)
  /-- `Fx0A` -/
  | ldVxK (x : Reg)
  /-- `Fx15` -/
  | ldDtVx (x : Reg)
  /-- `Fx18` -/
  | ldStVx (x : Reg)
  /-- `Fx1E` -/
  | addI (x : Reg)
  /-- `Fx29` -/
  | ldF (x : Reg)
  /-- `Fx33` -/
  | ldB (x : Reg)
  /-- `Fx55` -/
  | stRegs (x : Reg)
  /-- `Fx65` -/
  | ldRegs (x : Reg)
  deriving DecidableEq, Repr

end Sys2Proof
end

