-- ==== Sys2Proof/WellFormed.lean ====
section
/-! DEFINITION. Well-formed written instructions (30_encoding.md R72, R79). An `Instr` holds operands of exactly the
encoding's widths, and every value of every field is legal (R72), so each `Instr` is well formed. What can be ill
formed is an instruction AS WRITTEN, a mnemonic and plain numbers in the order of R79: the checks here are the number of
operands and the range of each, and `Written.instr` builds the instruction of a written form that passes them. -/

namespace Sys2Proof

/-- The mnemonics of R74, one a row of the opcode table, named as the constructors of `Instr`. -/
inductive Mnemonic where
  | cls | ret | jp | call | seImm | sneImm | seReg | ldImm | addImm | ldReg | or | and | xor | addReg
  | sub | shr | subn | shl | sneReg | ldI | jpV0 | rnd | drw | skp | sknp | ldVxDt | ldVxK | ldDtVx
  | ldStVx | addI | ldF | ldB | stRegs | ldRegs
  deriving DecidableEq, Repr

/-- The kinds of operand field of R72. -/
inductive OperandKind where
  /-- a register number, 4 bits -/
  | reg
  /-- the immediate `nn`, 8 bits -/
  | imm8
  /-- the address `nnn`, 12 bits -/
  | addr12
  /-- the row count `n` of `Dxyn`, 4 bits -/
  | count4
  deriving DecidableEq, Repr

/-- Whether a number fits a field of this kind (R72: unsigned, of the field's width). -/
def OperandKind.fits : OperandKind → Nat → Bool
  | .reg, a => decide (a < 16)
  | .imm8, a => decide (a < 256)
  | .addr12, a => decide (a < 4096)
  | .count4, a => decide (a < 16)

/-- The operand fields of each instruction, in the order of R79. DESIGN CHOICE, safe (log entry 20): the shifts `8xy6`
and `8xyE` are written with both their fields, the ignored `y` (R78) too; the spec does not say how `y` is written. -/
def Mnemonic.operands : Mnemonic → List OperandKind
  | .cls | .ret => []
  | .jp | .call | .ldI | .jpV0 => [.addr12]
  | .seImm | .sneImm | .ldImm | .addImm | .rnd => [.reg, .imm8]
  | .seReg | .ldReg | .or | .and | .xor | .addReg | .sub | .shr | .subn | .shl | .sneReg => [.reg, .reg]
  | .drw => [.reg, .reg, .count4]
  | .skp | .sknp | .ldVxDt | .ldVxK | .ldDtVx | .ldStVx | .addI | .ldF | .ldB | .stRegs | .ldRegs => [.reg]

/-- An instruction as written: a mnemonic and its operands as numbers (R79). -/
structure Written where
  mnemonic : Mnemonic
  operands : List Nat
  deriving DecidableEq, Repr

/-- Each number against the kind of its place. Lists of unequal length do not fit. -/
def fitsAll : List OperandKind → List Nat → Bool
  | [], [] => true
  | k :: ks, a :: as => k.fits a && fitsAll ks as
  | _, _ => false

/-- A written instruction is well formed when it has the operands of its mnemonic, each in its field's range. -/
def Written.wellFormed (w : Written) : Bool := fitsAll w.mnemonic.operands w.operands

/-- The mnemonic of an instruction. -/
def Instr.mnemonic : Instr → Mnemonic
  | .cls => .cls
  | .ret => .ret
  | .jp _ => .jp
  | .call _ => .call
  | .seImm _ _ => .seImm
  | .sneImm _ _ => .sneImm
  | .seReg _ _ => .seReg
  | .ldImm _ _ => .ldImm
  | .addImm _ _ => .addImm
  | .ldReg _ _ => .ldReg
  | .or _ _ => .or
  | .and _ _ => .and
  | .xor _ _ => .xor
  | .addReg _ _ => .addReg
  | .sub _ _ => .sub
  | .shr _ _ => .shr
  | .subn _ _ => .subn
  | .shl _ _ => .shl
  | .sneReg _ _ => .sneReg
  | .ldI _ => .ldI
  | .jpV0 _ => .jpV0
  | .rnd _ _ => .rnd
  | .drw _ _ _ => .drw
  | .skp _ => .skp
  | .sknp _ => .sknp
  | .ldVxDt _ => .ldVxDt
  | .ldVxK _ => .ldVxK
  | .ldDtVx _ => .ldDtVx
  | .ldStVx _ => .ldStVx
  | .addI _ => .addI
  | .ldF _ => .ldF
  | .ldB _ => .ldB
  | .stRegs _ => .stRegs
  | .ldRegs _ => .ldRegs

/-- An instruction as written, its operands as numbers in the order of R79. -/
def Instr.written : Instr → Written
  | .cls => ⟨.cls, []⟩
  | .ret => ⟨.ret, []⟩
  | .jp nnn => ⟨.jp, [nnn.toNat]⟩
  | .call nnn => ⟨.call, [nnn.toNat]⟩
  | .seImm x nn => ⟨.seImm, [x.val, nn.toNat]⟩
  | .sneImm x nn => ⟨.sneImm, [x.val, nn.toNat]⟩
  | .seReg x y => ⟨.seReg, [x.val, y.val]⟩
  | .ldImm x nn => ⟨.ldImm, [x.val, nn.toNat]⟩
  | .addImm x nn => ⟨.addImm, [x.val, nn.toNat]⟩
  | .ldReg x y => ⟨.ldReg, [x.val, y.val]⟩
  | .or x y => ⟨.or, [x.val, y.val]⟩
  | .and x y => ⟨.and, [x.val, y.val]⟩
  | .xor x y => ⟨.xor, [x.val, y.val]⟩
  | .addReg x y => ⟨.addReg, [x.val, y.val]⟩
  | .sub x y => ⟨.sub, [x.val, y.val]⟩
  | .shr x y => ⟨.shr, [x.val, y.val]⟩
  | .subn x y => ⟨.subn, [x.val, y.val]⟩
  | .shl x y => ⟨.shl, [x.val, y.val]⟩
  | .sneReg x y => ⟨.sneReg, [x.val, y.val]⟩
  | .ldI nnn => ⟨.ldI, [nnn.toNat]⟩
  | .jpV0 nnn => ⟨.jpV0, [nnn.toNat]⟩
  | .rnd x nn => ⟨.rnd, [x.val, nn.toNat]⟩
  | .drw x y n => ⟨.drw, [x.val, y.val, n.toNat]⟩
  | .skp x => ⟨.skp, [x.val]⟩
  | .sknp x => ⟨.sknp, [x.val]⟩
  | .ldVxDt x => ⟨.ldVxDt, [x.val]⟩
  | .ldVxK x => ⟨.ldVxK, [x.val]⟩
  | .ldDtVx x => ⟨.ldDtVx, [x.val]⟩
  | .ldStVx x => ⟨.ldStVx, [x.val]⟩
  | .addI x => ⟨.addI, [x.val]⟩
  | .ldF x => ⟨.ldF, [x.val]⟩
  | .ldB x => ⟨.ldB, [x.val]⟩
  | .stRegs x => ⟨.stRegs, [x.val]⟩
  | .ldRegs x => ⟨.ldRegs, [x.val]⟩

/-- The check on instructions. Operands have the field's width by their type, so it holds of every `Instr`. -/
def Instr.wellFormed (i : Instr) : Bool := i.written.wellFormed

/-- A register number of a written form that passed the range check. -/
def regOf (a : Nat) : Reg := Fin.ofNat 16 a

/-- The instruction of a mnemonic and operands of the right number and range (`Written.instr` checks them first). -/
def Mnemonic.build : Mnemonic → List Nat → Option Instr
  | .cls, [] => some (.cls)
  | .ret, [] => some (.ret)
  | .jp, [nnn] => some (.jp (.ofNat 12 nnn))
  | .call, [nnn] => some (.call (.ofNat 12 nnn))
  | .seImm, [x, nn] => some (.seImm (regOf x) (.ofNat 8 nn))
  | .sneImm, [x, nn] => some (.sneImm (regOf x) (.ofNat 8 nn))
  | .seReg, [x, y] => some (.seReg (regOf x) (regOf y))
  | .ldImm, [x, nn] => some (.ldImm (regOf x) (.ofNat 8 nn))
  | .addImm, [x, nn] => some (.addImm (regOf x) (.ofNat 8 nn))
  | .ldReg, [x, y] => some (.ldReg (regOf x) (regOf y))
  | .or, [x, y] => some (.or (regOf x) (regOf y))
  | .and, [x, y] => some (.and (regOf x) (regOf y))
  | .xor, [x, y] => some (.xor (regOf x) (regOf y))
  | .addReg, [x, y] => some (.addReg (regOf x) (regOf y))
  | .sub, [x, y] => some (.sub (regOf x) (regOf y))
  | .shr, [x, y] => some (.shr (regOf x) (regOf y))
  | .subn, [x, y] => some (.subn (regOf x) (regOf y))
  | .shl, [x, y] => some (.shl (regOf x) (regOf y))
  | .sneReg, [x, y] => some (.sneReg (regOf x) (regOf y))
  | .ldI, [nnn] => some (.ldI (.ofNat 12 nnn))
  | .jpV0, [nnn] => some (.jpV0 (.ofNat 12 nnn))
  | .rnd, [x, nn] => some (.rnd (regOf x) (.ofNat 8 nn))
  | .drw, [x, y, n] => some (.drw (regOf x) (regOf y) (.ofNat 4 n))
  | .skp, [x] => some (.skp (regOf x))
  | .sknp, [x] => some (.sknp (regOf x))
  | .ldVxDt, [x] => some (.ldVxDt (regOf x))
  | .ldVxK, [x] => some (.ldVxK (regOf x))
  | .ldDtVx, [x] => some (.ldDtVx (regOf x))
  | .ldStVx, [x] => some (.ldStVx (regOf x))
  | .addI, [x] => some (.addI (regOf x))
  | .ldF, [x] => some (.ldF (regOf x))
  | .ldB, [x] => some (.ldB (regOf x))
  | .stRegs, [x] => some (.stRegs (regOf x))
  | .ldRegs, [x] => some (.ldRegs (regOf x))
  | _, _ => none

/-- The instruction a written form stands for; none if the form is ill formed. -/
def Written.instr (w : Written) : Option Instr :=
  if w.wellFormed then w.mnemonic.build w.operands else none

end Sys2Proof
end

