-- ==== Sys2Proof/Decode.lean ====
section
/-! DEFINITION. The decoder (30_encoding.md R70 to R78), total on every word and on every list of bytes, and after it
the encoder, both from the map of R74. -/

namespace Sys2Proof

/-! ### Fields of a word (00_scope.md R8, 30_encoding.md R72) -/

/-- `op = w[15:12]`, the top nibble. -/
def opField (w : Word) : Nibble := w.extractLsb' 12 4

/-- `x = w[11:8]`, a register number. -/
def xField (w : Word) : Reg := (w.extractLsb' 8 4).toFin

/-- `y = w[7:4]`, a register number. -/
def yField (w : Word) : Reg := (w.extractLsb' 4 4).toFin

/-- `n = w[3:0]`. -/
def nField (w : Word) : Nibble := w.extractLsb' 0 4

/-- `nn = w[7:0]`. -/
def nnField (w : Word) : Byte := w.extractLsb' 0 8

/-- `nnn = w[11:0]`. -/
def nnnField (w : Word) : Addr := w.extractLsb' 0 12

/-! ### Decoding (R73 to R76) -/

/-- The words of top nibble 0: the whole word is compared (R73). -/
def decodeFixed (w : Word) : Option Instr :=
  match w.toNat with
  | 0x00E0 => some .cls
  | 0x00EE => some .ret
  | _ => none

/-- The ALU family, top nibble 8: `n` is the sub-opcode (R73, 43_alu.md R136). -/
def decodeAlu (x y : Reg) (n : Nibble) : Option Instr :=
  match n.toNat with
  | 0x0 => some (.ldReg x y)
  | 0x1 => some (.or x y)
  | 0x2 => some (.and x y)
  | 0x3 => some (.xor x y)
  | 0x4 => some (.addReg x y)
  | 0x5 => some (.sub x y)
  | 0x6 => some (.shr x y)
  | 0x7 => some (.subn x y)
  | 0xE => some (.shl x y)
  | _ => none

/-- Top nibble 0xE: `nn` is the sub-opcode (R73). -/
def decodeKey (x : Reg) (nn : Byte) : Option Instr :=
  match nn.toNat with
  | 0x9E => some (.skp x)
  | 0xA1 => some (.sknp x)
  | _ => none

/-- Top nibble 0xF: `nn` is the sub-opcode (R73). -/
def decodeSystem (x : Reg) (nn : Byte) : Option Instr :=
  match nn.toNat with
  | 0x07 => some (.ldVxDt x)
  | 0x0A => some (.ldVxK x)
  | 0x15 => some (.ldDtVx x)
  | 0x18 => some (.ldStVx x)
  | 0x1E => some (.addI x)
  | 0x29 => some (.ldF x)
  | 0x33 => some (.ldB x)
  | 0x55 => some (.stRegs x)
  | 0x65 => some (.ldRegs x)
  | _ => none

/-- The instruction of a word, or `none` for an illegal word (R75, R76): dispatch on the top nibble, then on the
sub-opcode. -/
def decodeWord (w : Word) : Option Instr :=
  match (opField w).toNat with
  | 0x0 => decodeFixed w
  | 0x1 => some (.jp (nnnField w))
  | 0x2 => some (.call (nnnField w))
  | 0x3 => some (.seImm (xField w) (nnField w))
  | 0x4 => some (.sneImm (xField w) (nnField w))
  | 0x5 => if nField w = 0 then some (.seReg (xField w) (yField w)) else none
  | 0x6 => some (.ldImm (xField w) (nnField w))
  | 0x7 => some (.addImm (xField w) (nnField w))
  | 0x8 => decodeAlu (xField w) (yField w) (nField w)
  | 0x9 => if nField w = 0 then some (.sneReg (xField w) (yField w)) else none
  | 0xA => some (.ldI (nnnField w))
  | 0xB => some (.jpV0 (nnnField w))
  | 0xC => some (.rnd (xField w) (nnField w))
  | 0xD => some (.drw (xField w) (yField w) (nField w))
  | 0xE => decodeKey (xField w) (nnField w)
  | _ => decodeSystem (xField w) (nnField w)

/-- Why bytes give no instruction. -/
inductive DecodeError where
  /-- Fewer than the two bytes of an instruction (R70). -/
  | truncated
  /-- The word matches no row of R74 (R75); it is the `info` of `IllegalInstruction`. -/
  | illegal (w : Word)
  deriving DecidableEq, Repr

/-- The word of two bytes, the byte of the lower address the high one (20_memory.md R55). -/
def wordOfBytes (hi lo : Byte) : Word := hi ++ lo

/-- The high byte of a word, bits 15 to 8. -/
def hiByte (w : Word) : Byte := w.extractLsb' 8 8

/-- The low byte of a word, bits 7 to 0. -/
def loByte (w : Word) : Byte := w.extractLsb' 0 8

/-- Decode the instruction at the head of a list of bytes and return it with the bytes after it. -/
def decodeBytes : List Byte → Except DecodeError (Instr × List Byte)
  | hi :: lo :: rest =>
    match decodeWord (wordOfBytes hi lo) with
    | some i => .ok (i, rest)
    | none => .error (.illegal (wordOfBytes hi lo))
  | _ => .error .truncated

/-- The two bytes of a word in memory order, the high byte first (R55, R70). -/
def bytesOfWord (w : Word) : List Byte := [hiByte w, loByte w]

/-- The instruction of a row's word as spec/opcode_table.json numbers its bits (bit 0 the least significant bit of the
one 16-bit word): the word is laid out as memory holds it and given to the decoder. -/
def decodeTableWord (nbits w : Nat) : Option Instr :=
  match decodeBytes (bytesOfWord (BitVec.ofNat 16 (w % 2 ^ nbits))) with
  | .ok (i, _) => some i
  | .error _ => none

/-! ### Encoding (R71, R74) -/

/-- A register number as the 4 bits of its field. -/
def regBits (r : Reg) : Nibble := .ofFin r

/-- Formats `ADDR`: the top nibble and `nnn`. -/
def encodeAddr (op : Nibble) (nnn : Addr) : Word := op ++ nnn

/-- Format `REG_IMM` (and `REG_SUB`, whose `nn` is the sub-opcode): top nibble, `x`, `nn`. -/
def encodeRegImm (op : Nibble) (x : Reg) (nn : Byte) : Word := op ++ (regBits x ++ nn : Addr)

/-- Format `REG_REG` (and `REG_REG_N`): top nibble, `x`, `y`, `n`. -/
def encodeRegReg (op : Nibble) (x y : Reg) (n : Nibble) : Word := op ++ (regBits x ++ (regBits y ++ n : Byte) : Addr)

/-- The word of an instruction, from the map of R74. The operand `y` of the shifts, which has no effect, keeps its
place (R78). -/
def encode : Instr → Word
  | .cls => 0x00E0
  | .ret => 0x00EE
  | .jp nnn => encodeAddr 0x1 nnn
  | .call nnn => encodeAddr 0x2 nnn
  | .seImm x nn => encodeRegImm 0x3 x nn
  | .sneImm x nn => encodeRegImm 0x4 x nn
  | .seReg x y => encodeRegReg 0x5 x y 0x0
  | .ldImm x nn => encodeRegImm 0x6 x nn
  | .addImm x nn => encodeRegImm 0x7 x nn
  | .ldReg x y => encodeRegReg 0x8 x y 0x0
  | .or x y => encodeRegReg 0x8 x y 0x1
  | .and x y => encodeRegReg 0x8 x y 0x2
  | .xor x y => encodeRegReg 0x8 x y 0x3
  | .addReg x y => encodeRegReg 0x8 x y 0x4
  | .sub x y => encodeRegReg 0x8 x y 0x5
  | .shr x y => encodeRegReg 0x8 x y 0x6
  | .subn x y => encodeRegReg 0x8 x y 0x7
  | .shl x y => encodeRegReg 0x8 x y 0xE
  | .sneReg x y => encodeRegReg 0x9 x y 0x0
  | .ldI nnn => encodeAddr 0xA nnn
  | .jpV0 nnn => encodeAddr 0xB nnn
  | .rnd x nn => encodeRegImm 0xC x nn
  | .drw x y n => encodeRegReg 0xD x y n
  | .skp x => encodeRegImm 0xE x 0x9E
  | .sknp x => encodeRegImm 0xE x 0xA1
  | .ldVxDt x => encodeRegImm 0xF x 0x07
  | .ldVxK x => encodeRegImm 0xF x 0x0A
  | .ldDtVx x => encodeRegImm 0xF x 0x15
  | .ldStVx x => encodeRegImm 0xF x 0x18
  | .addI x => encodeRegImm 0xF x 0x1E
  | .ldF x => encodeRegImm 0xF x 0x29
  | .ldB x => encodeRegImm 0xF x 0x33
  | .stRegs x => encodeRegImm 0xF x 0x55
  | .ldRegs x => encodeRegImm 0xF x 0x65

/-- The bytes of an instruction in memory order. -/
def encodeBytes (i : Instr) : List Byte := bytesOfWord (encode i)

/-! ### The opcode table itself (R74): a second, declarative reading of the same map -/

/-- A row of R74: a word `w` selects it when `w & mask = bits` (`bits` is the table's `match`). -/
structure OpcodeRow where
  mnemonic : Mnemonic
  mask : Word
  bits : Word
  deriving DecidableEq, Repr

/-- Whether a word selects a row. -/
def OpcodeRow.selects (r : OpcodeRow) (w : Word) : Bool := w &&& r.mask == r.bits

/-- Rows 1 to 9 of R74. -/
def opcodeRows0 : List OpcodeRow := [
  ⟨.cls, 0xFFFF, 0x00E0⟩,
  ⟨.ret, 0xFFFF, 0x00EE⟩,
  ⟨.jp, 0xF000, 0x1000⟩,
  ⟨.call, 0xF000, 0x2000⟩,
  ⟨.seImm, 0xF000, 0x3000⟩,
  ⟨.sneImm, 0xF000, 0x4000⟩,
  ⟨.seReg, 0xF00F, 0x5000⟩,
  ⟨.ldImm, 0xF000, 0x6000⟩,
  ⟨.addImm, 0xF000, 0x7000⟩]

/-- Rows 10 to 18 of R74. -/
def opcodeRows1 : List OpcodeRow := [
  ⟨.ldReg, 0xF00F, 0x8000⟩,
  ⟨.or, 0xF00F, 0x8001⟩,
  ⟨.and, 0xF00F, 0x8002⟩,
  ⟨.xor, 0xF00F, 0x8003⟩,
  ⟨.addReg, 0xF00F, 0x8004⟩,
  ⟨.sub, 0xF00F, 0x8005⟩,
  ⟨.shr, 0xF00F, 0x8006⟩,
  ⟨.subn, 0xF00F, 0x8007⟩,
  ⟨.shl, 0xF00F, 0x800E⟩]

/-- Rows 19 to 25 of R74. -/
def opcodeRows2 : List OpcodeRow := [
  ⟨.sneReg, 0xF00F, 0x9000⟩,
  ⟨.ldI, 0xF000, 0xA000⟩,
  ⟨.jpV0, 0xF000, 0xB000⟩,
  ⟨.rnd, 0xF000, 0xC000⟩,
  ⟨.drw, 0xF000, 0xD000⟩,
  ⟨.skp, 0xF0FF, 0xE09E⟩,
  ⟨.sknp, 0xF0FF, 0xE0A1⟩]

/-- Rows 26 to 34 of R74. -/
def opcodeRows3 : List OpcodeRow := [
  ⟨.ldVxDt, 0xF0FF, 0xF007⟩,
  ⟨.ldVxK, 0xF0FF, 0xF00A⟩,
  ⟨.ldDtVx, 0xF0FF, 0xF015⟩,
  ⟨.ldStVx, 0xF0FF, 0xF018⟩,
  ⟨.addI, 0xF0FF, 0xF01E⟩,
  ⟨.ldF, 0xF0FF, 0xF029⟩,
  ⟨.ldB, 0xF0FF, 0xF033⟩,
  ⟨.stRegs, 0xF0FF, 0xF055⟩,
  ⟨.ldRegs, 0xF0FF, 0xF065⟩]

/-- The 34 rows of R74, in its order. -/
def opcodeRows : List OpcodeRow := opcodeRows0 ++ opcodeRows1 ++ opcodeRows2 ++ opcodeRows3

end Sys2Proof
end

