-- ==== Sys2Proof/Config.lean ====
section
/-! DEFINITION. The implementation parameters of 00_scope.md R7, in one record, and the values the spec leaves open.
The widths of registers are carried by the types of Word.lean and of the fields of `State`; Laws/Config.lean shows that
they are the widths of the record. -/

namespace Sys2Proof.Config

/-! ### The values the spec leaves open -/

/-- `FONT[a]` for `a` in 0 to 79: the spec gives no byte of it (20_memory.md R52, 92_eei_decisions.md D11, an OPEN
parameter). Nothing is known of it; log entry 2. -/
opaque font : Nat → Byte

/-- The key code the host presents to the `n`-th step, where no list of inputs says otherwise: any value of the
contract (60_exceptions.md R184); log entry 1. -/
opaque key : Nat → Key

/-- The random byte of the `n`-th step, where no list of inputs says otherwise: "a free draw at every step, under no
law" (42_immediate_random.md R122, 92_eei_decisions.md D12); log entry 1. -/
opaque rnd : Nat → Byte

/-! ### The record of R7 -/

/-- `TIMER_MODE`. The spec describes this one configuration and no other (92_eei_decisions.md D21), so `step` has it
built in. -/
inductive TimerMode where
  /-- Both timers tick inside every non-blocked step (40_step_cycle.md R94). -/
  | insideEveryNonBlockedStep
  deriving DecidableEq, Repr

/-- The byte order of fetch. It "cannot be switched" (20_memory.md R55), so `wordOfBytes` has it built in. -/
inductive ByteOrder where
  /-- The byte at the lower address is the high byte (R55). -/
  | bigEndian
  deriving DecidableEq, Repr

/-- Every parameter of R7. -/
structure Parameters where
  /-- `MEM_SIZE`: bytes of memory. -/
  memSize : Nat
  /-- `FONT_BASE`: where the font stands. -/
  fontBase : Nat
  /-- `FONT_LEN`: bytes of the font. -/
  fontLen : Nat
  /-- `FONT[0..79]`. -/
  font : Nat → Byte
  /-- `PROG_BASE`: where the ROM is loaded and the first instruction is fetched. -/
  progBase : Nat
  /-- `ROM_MAX`: the longest ROM the loader accepts. -/
  romMax : Nat
  /-- `NREGS`: general registers. -/
  nregs : Nat
  /-- Bits of a general register. -/
  registerWidth : Nat
  /-- Bits of `I`. -/
  indexWidth : Nat
  /-- The low bits of `I` that are "architecturally meaningful": those of a valid address. -/
  addressWidth : Nat
  /-- Bits of `pc`. -/
  pcWidth : Nat
  /-- `STACK_DEPTH`: entries of the call stack. -/
  stackDepth : Nat
  /-- Bits of a stack entry. -/
  stackEntryWidth : Nat
  /-- Bits of `sp`, whose values are 0 to `STACK_DEPTH`. -/
  spWidth : Nat
  /-- Bits of each timer. -/
  timerWidth : Nat
  /-- `WIDTH`: columns of the framebuffer. -/
  width : Nat
  /-- `HEIGHT`: rows of the framebuffer. -/
  height : Nat
  /-- `TIMER_MODE`. -/
  timerMode : TimerMode
  /-- Steps a second the host is expected to request; no rule depends on it (70_reset_and_hazards.md R216). -/
  nominalStepRate : Nat
  /-- Bits of an instruction, fixed. -/
  instructionWidth : Nat
  /-- The byte order of fetch. -/
  byteOrder : ByteOrder

/-- The values this hardware takes (R7). -/
abbrev parameters : Parameters where
  memSize := 0x1000
  fontBase := 0x000
  fontLen := 80
  font := font
  progBase := 0x200
  romMax := 0xE00
  nregs := 16
  registerWidth := 8
  indexWidth := 16
  addressWidth := 12
  pcWidth := 16
  stackDepth := 16
  stackEntryWidth := 16
  spWidth := 5
  timerWidth := 8
  width := 64
  height := 32
  timerMode := .insideEveryNonBlockedStep
  nominalStepRate := 60
  instructionWidth := 16
  byteOrder := .bigEndian

/-! ### The entries the other definitions read -/

@[simp] abbrev memSize : Nat := parameters.memSize
@[simp] abbrev fontBase : Nat := parameters.fontBase
@[simp] abbrev fontLen : Nat := parameters.fontLen
@[simp] abbrev progBase : Nat := parameters.progBase
@[simp] abbrev romMax : Nat := parameters.romMax
@[simp] abbrev nregs : Nat := parameters.nregs
@[simp] abbrev stackDepth : Nat := parameters.stackDepth
@[simp] abbrev width : Nat := parameters.width
@[simp] abbrev height : Nat := parameters.height

end Sys2Proof.Config
end

