-- ==== Sys2Proof/Machine/State.lean ====
section
/-! DEFINITION. The state of the CORE: the eleven items of 10_state.md R20, and the port on which the host presents the
inputs of each step. Plain data. -/

namespace Sys2Proof.Machine

/-- The inputs of one step, sampled once at its start (00_scope.md R6, 40_step_cycle.md R90). -/
structure StepInput where
  /-- `key`: 0 no key, 1 to 16 a key. -/
  key : Key
  /-- `rnd`: the byte `Cxnn` draws. -/
  rnd : Byte
  deriving DecidableEq, Repr

/-- The input port. It is no state of the CORE (10_state.md R32): it stands for what the host presents, so that a step is
a function of one argument. The inputs of the coming steps, as far as they are listed, stand in `listed`, the next step's
first; past the list, the `drawn`-th step samples the free values `Config.key` and `Config.rnd`. DESIGN CHOICE, safe: a
claim about every state is a claim about every input (log entry 1). -/
structure InputPort where
  /-- What the host presents to the coming steps. -/
  listed : List StepInput
  /-- How many steps have sampled their inputs. -/
  drawn : Nat
  deriving DecidableEq, Repr

/-- Main memory (10_state.md R31): the bytes that differ from what the address reads as when nothing is listed
(`unlisted`, the reset contents), addresses strictly rising. -/
abbrev Memory := List Host.Cell

/-- The framebuffer (10_state.md R30): 32 rows of 64 cells, `true` lit. -/
abbrev Framebuffer := Vector (Vector Bool Config.width) Config.height

/-- The state. Every field down to `fb` is an item of R20 under the spec's name. -/
structure State where
  /-- `v[0]` to `v[15]`, `v[15]` being `VF` (R21, R22). -/
  v : Vector Byte Config.nregs
  /-- The index register, 16 bits stored (R23). -/
  I : Word
  /-- The program counter (R24). -/
  pc : Word
  /-- The stack pointer, 0 to 16 (R25); the index of the next free entry. -/
  sp : Fin (Config.stackDepth + 1)
  /-- The call stack, a storage of its own (R26). -/
  stack : Vector Word Config.stackDepth
  /-- The delay timer (R27). -/
  dt : Byte
  /-- The sound timer (R27). -/
  st : Byte
  /-- `wait_key`: true while the CORE waits inside `Fx0A` (R28). -/
  waitKey : Bool
  /-- `wait_x`: the register a key-wait will write (R29). -/
  waitX : Reg
  /-- Main memory (R31). -/
  mem : Memory
  /-- The framebuffer (R30). -/
  fb : Framebuffer
  /-- The model's own: what the host presents to the coming steps. -/
  port : InputPort
  deriving DecidableEq, Repr

/-- The conditions of 60_exceptions.md R170 with their `info`. A condition ends the step with no change of state (R177)
and has no handler inside the machine (R178), so it is an outcome of its own; the host's view of what follows is
`Sys2Proof.Machine.HostView`. -/
inductive Fault where
  /-- `IllegalInstruction(w)`: raised by a non-blocked step whose word matches no instruction (R172). The spec's own
  condition: exact, and safe. -/
  | illegalInstruction (w : Word)
  /-- `StackOverflow(pc)`: raised by `2nnn` with `sp = 16` (R173). The spec's own condition: exact, and safe. -/
  | stackOverflow (pc : Word)
  /-- `StackUnderflow(pc)`: raised by `00EE` with `sp = 0` (R174). The spec's own condition: exact, and safe. -/
  | stackUnderflow (pc : Word)
  /-- `AddressOutOfRange(a)`: raised by the fetch, `Dxyn`, `Fx33`, `Fx55`, `Fx65` and `Fx1E` (R175); `a` is the
  offending address or sum. The spec's own condition: exact, and safe. -/
  | addressOutOfRange (a : Nat)
  /-- `RomTooLarge(len)`: raised by the loader, never by a step (R176). The spec's own condition: exact, and safe. -/
  | romTooLarge (len : Nat)
  deriving DecidableEq, Repr

/-- Why the model gives a step no meaning. No instruction of this model is refused. -/
inductive Refusal where
  /-- An instruction that has no meaning yet, raised by its arm of `exec` alone. Safe. No arm raises it. -/
  | notModelled (mnemonic : String)
  deriving DecidableEq, Repr

/-- What a step or a meaning answers. -/
abbrev Result := Host.Outcome State Fault Refusal

/-- The state after reset with no ROM byte placed (10_state.md R33, 70_reset_and_hazards.md R201). Memory lists nothing:
an unlisted address reads as R33 says. The port is the model's own (log entry 1). -/
def State.reset : State where
  v := Vector.replicate Config.nregs 0
  I := 0
  pc := .ofNat 16 Config.progBase
  sp := 0
  stack := Vector.replicate Config.stackDepth 0
  dt := 0
  st := 0
  waitKey := false
  waitX := 0
  mem := []
  fb := Vector.replicate Config.height (Vector.replicate Config.width false)
  port := ⟨[], 0⟩

end Sys2Proof.Machine
end

