-- ==== Sys2Proof/Machine/Operands.lean ====
section
/-! DEFINITION. The operand forms (30_encoding.md R72, 00_scope.md R10): registers, the widening of immediates, the
implicit registers `v[0]` and `v[0..x]`, the address `I + k`, and the inputs of the step. -/

namespace Sys2Proof.Machine

/-! ### Registers -/

/-- `v[x]`. No register is hard-wired (10_state.md R21). -/
def State.reg (s : State) (x : Reg) : Byte := s.v[x]

/-- `v[x] <- b`. -/
def State.setReg (s : State) (x : Reg) (b : Byte) : State := { s with v := s.v.set x b }

/-- The number of the flag register: `VF` is `v[15]` (R22). -/
@[simp] abbrev flagReg : Reg := 15

/-- The registers `v[0]` to `v[x]` inclusive, ascending: the operand of `Fx55` and `Fx65` (R72). -/
def regsUpTo (x : Reg) : List Reg := (List.finRange 16).filter (fun k => decide (k ≤ x))

/-! ### Immediates -/

/-- `zext_16` of an address immediate (R72: never scaled, never relative to `pc`). -/
def zextAddr (a : Addr) : Word := a.setWidth 16

/-- `zext_16` of a byte (00_scope.md R9). -/
def zextByte (b : Byte) : Word := b.setWidth 16

/-- `zext_8` of a key code (46_key_timer.md R160): the code itself, not masked and not offset. -/
def zextKey (k : Key) : Byte := .ofNat 8 k.val

/-! ### Addresses -/

/-- The effective address `I + k`, formed in the integers (44_index_memory.md R146). -/
def State.effective (s : State) (k : Nat) : Nat := s.I.toNat + k

/-! ### The inputs of the step -/

/-- The inputs the coming step samples. -/
def InputPort.now (p : InputPort) : StepInput :=
  match p.listed with
  | i :: _ => i
  | [] => ⟨Config.key p.drawn, Config.rnd p.drawn⟩

/-- The port after a step has sampled its inputs. -/
def InputPort.advance (p : InputPort) : InputPort := ⟨p.listed.tail, p.drawn + 1⟩

/-- `key`, the key code of this step. -/
def State.key (s : State) : Key := s.port.now.key

/-- `rnd`, the random byte of this step. -/
def State.rnd (s : State) : Byte := s.port.now.rnd

end Sys2Proof.Machine
end

