-- ==== Sys2Proof/Machine/Flags.lean ====
section
/-! DEFINITION. The values written to the flag register `VF` (10_state.md R22, 43_alu.md R125, R135): always exactly 0
or 1. -/

namespace Sys2Proof.Machine

/-- A flag as the byte `VF` receives. -/
def flagByte (b : Bool) : Byte := if b then 1 else 0

/-- `8xy4`: 1 exactly when the true sum exceeds 255 (R130). -/
def carryFlag (a b : Byte) : Byte := flagByte (decide (255 < a.toNat + b.toNat))

/-- `8xy5`, `8xy7`: 0 exactly when the minuend `a` is smaller than the subtrahend `b`, else 1 (R131, R133, R135). -/
def notBorrowFlag (a b : Byte) : Byte := flagByte (!decide (a.toNat < b.toNat))

/-- `8xy6`: the bit shifted out at the bottom (R132). -/
def lowBitFlag (a : Byte) : Byte := a &&& 1

/-- `8xyE`: the bit shifted out at the top (R134). -/
def highBitFlag (a : Byte) : Byte := (a >>> 7) &&& 1

end Sys2Proof.Machine
end

