-- ==== Sys2Proof/Machine/Ops.lean ====
section
/-! DEFINITION. The shared operations: memory (20_memory.md), the framebuffer, the program counter, the call stack, the
common parts of the step (40_step_cycle.md), and raising a condition (60_exceptions.md R177). -/

namespace Sys2Proof.Machine

/-! ### Raising a condition -/

/-- Raise a condition: the step is abandoned and nothing of it is kept (R177). There is no saved register, vector or
mode to write, and nothing to return from (R178). -/
def raise (f : Fault) : Result := .fault f

/-! ### Memory -/

/-- What an address that memory does not list reads as: the reset contents of 10_state.md R33, FONT at 0x000 to 0x04F
and 0 elsewhere. -/
def unlisted (a : Nat) : Byte :=
  if Config.fontBase ≤ a ∧ a < Config.fontBase + Config.fontLen then Config.font (a - Config.fontBase) else 0

/-- `MemRead(a, 1)` (00_scope.md R10). -/
def Memory.read : Memory → Nat → Byte
  | [], a => unlisted a
  | (k, b) :: rest, a => if k = a then b else Memory.read rest a

/-- `MemWrite(a, 1, b)` (00_scope.md R10), keeping the canonical form: a byte equal to what the address reads as
unlisted is not listed. The font region is written like any other (20_memory.md R61). -/
def Memory.write : Memory → Nat → Byte → Memory
  | [], a, b => if b = unlisted a then [] else [(a, b)]
  | (k, c) :: rest, a, b =>
    if k < a then (k, c) :: Memory.write rest a b
    else
      let tail := if k = a then rest else (k, c) :: rest
      if b = unlisted a then tail else (a, b) :: tail

/-- The canonical form: addresses strictly rising and inside memory, no byte equal to what its address reads as
unlisted. -/
abbrev Memory.wf (m : Memory) : Prop :=
  m.Pairwise (fun c d => c.1 < d.1) ∧ ∀ c ∈ m, c.1 < Config.memSize ∧ c.2 ≠ unlisted c.1

/-- Store bytes at consecutive addresses, ascending. -/
def Memory.store : Memory → Nat → List Byte → Memory
  | m, _, [] => m
  | m, a, b :: bs => Memory.store (m.write a b) (a + 1) bs

/-- The bounds check of 20_memory.md R56 on the range of `len` bytes from `first`: a range that passes 0xFFF raises
`AddressOutOfRange` of its last address before anything is touched; an empty range raises nothing. -/
def guardRange (first len : Nat) (k : Result) : Result :=
  if 0 < len ∧ 0xFFF < first + len - 1 then raise (.addressOutOfRange (first + len - 1)) else k

/-! ### The framebuffer (20_memory.md R67) -/

/-- `fb[row][col]`. -/
def Framebuffer.cell (fb : Framebuffer) (row : Fin Config.height) (col : Fin Config.width) : Bool := fb[row][col]

/-- `fb[row][col] <- fb[row][col] ^ 1`. -/
def Framebuffer.flip (fb : Framebuffer) (row : Fin Config.height) (col : Fin Config.width) : Framebuffer :=
  fb.set row (fb[row].set col (!fb.cell row col))

/-- All cells unlit (45_display.md R150). -/
def Framebuffer.clear : Framebuffer := Vector.replicate Config.height (Vector.replicate Config.width false)

/-- A row coordinate reduced modulo `HEIGHT`: coordinates wrap (R67). -/
def wrapRow (r : Nat) : Fin Config.height := Fin.ofNat Config.height r

/-- A column coordinate reduced modulo `WIDTH`. -/
def wrapCol (c : Nat) : Fin Config.width := Fin.ofNat Config.width c

/-- What a draw has done so far: the framebuffer, and whether a lit cell was turned unlit. -/
abbrev Canvas := Framebuffer × Bool

/-- Draw the 1 bit `b` of sprite row `r` (45_display.md R151): note a collision, then invert the cell. -/
def plot (cx cy r b : Nat) (c : Canvas) : Canvas :=
  (c.1.flip (wrapRow (cy + r)) (wrapCol (cx + b)), c.2 || c.1.cell (wrapRow (cy + r)) (wrapCol (cx + b)))

/-- Draw sprite row `r`, bit 7 of its byte leftmost (R151). -/
def drawRow (cx cy r : Nat) (byte : Byte) (c : Canvas) : Canvas :=
  (List.range 8).foldl (fun c b => if byte.getLsbD (7 - b) then plot cx cy r b c else c) c

/-- Draw the `n` sprite rows read from `base` on (R151). -/
def drawSprite (m : Memory) (cx cy base n : Nat) (c : Canvas) : Canvas :=
  (List.range n).foldl (fun c r => drawRow cx cy r (m.read (base + r)) c) c

/-! ### The program counter (40_step_cycle.md R96) -/

/-- `pc <- a`. -/
def State.setPc (s : State) (a : Word) : State := { s with pc := a }

/-- Fall-through, `pc <- pc + 2`. -/
def State.advance (s : State) : State := s.setPc (s.pc + 2)

/-- Finish an instruction that falls through. -/
def fallThrough (s : State) : Result := .next s.advance

/-- A skip: `pc + 4` if the condition holds, else `pc + 2` (41_flow.md R113 to R116). -/
def skipIf (c : Bool) (s : State) : Result := .next (s.setPc (s.pc + if c then 4 else 2))

/-! ### The call stack (10_state.md R25, R26; 20_memory.md R66) -/

/-- Push a return address and jump: `StackOverflow(pc)` with `sp = 16`, nothing pushed (41_flow.md R112). -/
def callTo (target : Word) (s : State) : Result :=
  if h : s.sp.val < Config.stackDepth then
    .next { s with stack := s.stack.set s.sp.val (s.pc + 2), sp := ⟨s.sp.val + 1, by omega⟩, pc := target }
  else raise (.stackOverflow s.pc)

/-- Pop a return address into `pc`: `StackUnderflow(pc)` with `sp = 0` (41_flow.md R110). The popped entry stays. -/
def popReturn (s : State) : Result :=
  if h : 0 < s.sp.val then
    .next { s with sp := ⟨s.sp.val - 1, by omega⟩, pc := s.stack[s.sp.val - 1]'(by omega) }
  else raise (.stackUnderflow s.pc)

/-! ### The ALU (43_alu.md R125) -/

/-- The end of `8xy4`, `8xy5` and `8xy7`: the result to `v[x]`, then the flag to `v[15]`, then `pc` (R125 (a)). -/
def writeResultThenFlag (x : Reg) (result flag : Byte) (s : State) : Result :=
  fallThrough ((s.setReg x result).setReg flagReg flag)

/-- `8xy6` and `8xyE`: the flag of `v[x]` to `v[15]` first, then `v[x]`, read again, shifted (R125 (b)). -/
def flagThenShift (x : Reg) (flag shift : Byte → Byte) (s : State) : Result :=
  let t := s.setReg flagReg (flag (s.reg x))
  fallThrough (t.setReg x (shift (t.reg x)))

/-! ### The parts of a step (40_step_cycle.md) -/

/-- The instruction word at an address, big-endian (20_memory.md R55). -/
def State.wordAt (s : State) (a : Nat) : Word := wordOfBytes (s.mem.read a) (s.mem.read (a + 1))

/-- Fetch (R91): `AddressOutOfRange(pc)` if the low byte would lie beyond memory, else go on with the word at `pc`. -/
def fetch (s : State) (k : Word → Result) : Result :=
  if 0xFFF < s.pc.toNat + 1 then raise (.addressOutOfRange s.pc.toNat) else k (s.wordAt s.pc.toNat)

/-- A timer's tick: down by one, never below 0 (R94). -/
def countDown (t : Byte) : Byte := if t = 0 then 0 else t - 1

/-- `tick_timers` (R94). -/
def State.tickTimers (s : State) : State := { s with dt := countDown s.dt, st := countDown s.st }

/-- `resolve_key_wait(key)` (R93): the raw key code to the pending register, no timer tick. -/
def State.resolveKeyWait (s : State) (k : Key) : State :=
  { (s.setReg s.waitX (zextKey k)).advance with waitKey := false }

/-- A blocked step after its fetch: nothing with no key (R92), else the wait ends (R93). -/
def blockedStep (s : State) : Result :=
  if s.key = 0 then .next s else .next (s.resolveKeyWait s.key)

/-- The inputs of the step are used up: the host presents the next ones. -/
def State.dropInput (s : State) : State := { s with port := s.port.advance }

/-- The end of a step: a committed step has used up its inputs; a condition leaves nothing (R90). -/
def endStep : Result → Result
  | .next t => .next t.dropInput
  | .fault f => .fault f
  | .refused r => .refused r

/-- Place a word where the next step fetches and runs it: at `pc`, in two bytes, the high one first. A waiting CORE
would discard the word and a `pc` beyond 0xFFE could not fetch it, so the wait is cleared and such a `pc` is set to the
entry point 0x200 (log entry 4). -/
def State.placeWord (s : State) (w : Word) : State :=
  let pc : Word := if 0xFFF < s.pc.toNat + 1 then .ofNat 16 Config.progBase else s.pc
  { s with mem := s.mem.store pc.toNat (bytesOfWord w), pc := pc, waitKey := false }

end Sys2Proof.Machine
end

