-- ==== Sys2Proof/Machine/Alu.lean ====
section
/-! DEFINITION. The ALU family (43_alu.md). Register arithmetic wraps modulo 256 (R135). -/

namespace Sys2Proof.Machine

/-- `8xy0`: copy (R126). -/
def execLdReg (x y : Reg) (s : State) : Result := fallThrough (s.setReg x (s.reg y))

/-- `8xy1`: bitwise or, `VF` not written (R127). -/
def execOr (x y : Reg) (s : State) : Result := fallThrough (s.setReg x (s.reg x ||| s.reg y))

/-- `8xy2`: bitwise and, `VF` not written (R128). -/
def execAnd (x y : Reg) (s : State) : Result := fallThrough (s.setReg x (s.reg x &&& s.reg y))

/-- `8xy3`: bitwise exclusive or, `VF` not written (R129). -/
def execXor (x y : Reg) (s : State) : Result := fallThrough (s.setReg x (s.reg x ^^^ s.reg y))

/-- `8xy4`: add with carry out (R130); with `x = 15` the carry is what stays (R125 (a)). -/
def execAddReg (x y : Reg) (s : State) : Result :=
  writeResultThenFlag x (s.reg x + s.reg y) (carryFlag (s.reg x) (s.reg y)) s

/-- `8xy5`: `v[x] - v[y]` (R131). -/
def execSub (x y : Reg) (s : State) : Result :=
  writeResultThenFlag x (s.reg x - s.reg y) (notBorrowFlag (s.reg x) (s.reg y)) s

/-- `8xy7`: `v[y] - v[x]` (R133). -/
def execSubn (x y : Reg) (s : State) : Result :=
  writeResultThenFlag x (s.reg y - s.reg x) (notBorrowFlag (s.reg y) (s.reg x)) s

/-- `8xy6`: shift `v[x]` right by one in place; `y` is ignored (R132, 30_encoding.md R78). -/
def execShr (x _y : Reg) (s : State) : Result := flagThenShift x lowBitFlag (· >>> 1) s

/-- `8xyE`: shift `v[x]` left by one in place; `y` is ignored (R134, 30_encoding.md R78). -/
def execShl (x _y : Reg) (s : State) : Result := flagThenShift x highBitFlag (· <<< 1) s

end Sys2Proof.Machine
end

