-- ==== Sys2Proof/Machine/Display.lean ====
section
/-! DEFINITION. The display instructions (45_display.md). -/

namespace Sys2Proof.Machine

/-- `00E0`: clear the framebuffer; `VF` is not written (R150). -/
def execCls (s : State) : Result := fallThrough { s with fb := .clear }

/-- `Dxyn`: draw (R151). Coordinates and `I` are read first, then the range is checked, then `VF` is 0 and becomes 1 if
a lit cell is turned unlit. -/
def execDrw (x y : Reg) (n : Nibble) (s : State) : Result :=
  guardRange (s.effective 0) n.toNat <|
    let c := drawSprite s.mem (s.reg x).toNat (s.reg y).toNat (s.effective 0) n.toNat (s.fb, false)
    fallThrough { s.setReg flagReg (flagByte c.2) with fb := c.1 }

end Sys2Proof.Machine
end

