-- ==== Sys2Proof/Machine/Flow.lean ====
section
/-! DEFINITION. Control transfer (41_flow.md). -/

namespace Sys2Proof.Machine

/-- `00EE`: return (R110). -/
def execRet (s : State) : Result := popReturn s

/-- `1nnn`: `pc <- nnn` (R111). Any target; a bad one is found by the next fetch. -/
def execJp (nnn : Addr) (s : State) : Result := .next (s.setPc (zextAddr nnn))

/-- `2nnn`: call (R112). -/
def execCall (nnn : Addr) (s : State) : Result := callTo (zextAddr nnn) s

/-- `3xnn`: skip if `v[x] = nn` (R113). -/
def execSeImm (x : Reg) (nn : Byte) (s : State) : Result := skipIf (s.reg x == nn) s

/-- `4xnn`: skip if `v[x] != nn` (R114). -/
def execSneImm (x : Reg) (nn : Byte) (s : State) : Result := skipIf (s.reg x != nn) s

/-- `5xy0`: skip if `v[x] = v[y]` (R115). -/
def execSeReg (x y : Reg) (s : State) : Result := skipIf (s.reg x == s.reg y) s

/-- `9xy0`: skip if `v[x] != v[y]` (R116). -/
def execSneReg (x y : Reg) (s : State) : Result := skipIf (s.reg x != s.reg y) s

/-- `Bnnn`: `pc <- nnn + v[0]`, at most 0x10FE and not reduced (R117). -/
def execJpV0 (nnn : Addr) (s : State) : Result := .next (s.setPc (zextAddr nnn + zextByte (s.reg 0)))

end Sys2Proof.Machine
end

