-- ==== Sys2Proof/Machine/Immediate.lean ====
section
/-! DEFINITION. Register-immediate instructions and the random byte (42_immediate_random.md). -/

namespace Sys2Proof.Machine

/-- `6xnn`: `v[x] <- nn` (R120). -/
def execLdImm (x : Reg) (nn : Byte) (s : State) : Result := fallThrough (s.setReg x nn)

/-- `7xnn`: `v[x] <- (v[x] + nn) mod 256`, no flag (R121). -/
def execAddImm (x : Reg) (nn : Byte) (s : State) : Result := fallThrough (s.setReg x (s.reg x + nn))

/-- `Cxnn`: `v[x] <- rnd & nn`, `rnd` being the step's input (R122). -/
def execRnd (x : Reg) (nn : Byte) (s : State) : Result := fallThrough (s.setReg x (s.rnd &&& nn))

end Sys2Proof.Machine
end

