-- ==== Sys2Proof/Machine/Index.lean ====
section
/-! DEFINITION. The index register and memory instructions (44_index_memory.md). Addresses are `I + k` in the integers,
`I` is never changed by an access, and each range is checked before its first access (R146). -/

namespace Sys2Proof.Machine

/-- `Annn`: `I <- nnn` (R140). -/
def execLdI (nnn : Addr) (s : State) : Result := fallThrough { s with I := zextAddr nnn }

/-- `Fx1E`: `I <- I + v[x]`; `AddressOutOfRange` of the sum if it passes 0xFFFF (R141). `VF` is not written. -/
def execAddI (x : Reg) (s : State) : Result :=
  let sum := s.effective (s.reg x).toNat
  if 0xFFFF < sum then raise (.addressOutOfRange sum) else fallThrough { s with I := .ofNat 16 sum }

/-- `Fx29`: `I <- v[x] * 5`, the whole byte, exact (R142). -/
def execLdF (x : Reg) (s : State) : Result := fallThrough { s with I := zextByte (s.reg x) * 5 }

/-- The three decimal digits of a byte, hundreds first (R143). -/
def decimalDigits (b : Byte) : List Byte :=
  [.ofNat 8 (b.toNat / 100), .ofNat 8 (b.toNat / 10 % 10), .ofNat 8 (b.toNat % 10)]

/-- `Fx33`: the digits of `v[x]` to `I`, `I + 1`, `I + 2` (R143). -/
def execLdB (x : Reg) (s : State) : Result :=
  guardRange (s.effective 0) 3 <|
    fallThrough { s with mem := s.mem.store (s.effective 0) (decimalDigits (s.reg x)) }

/-- `Fx55`: `v[0]` to `v[x]` to `I` to `I + x` (R144). -/
def execStRegs (x : Reg) (s : State) : Result :=
  guardRange (s.effective 0) (x.val + 1) <|
    fallThrough { s with mem := s.mem.store (s.effective 0) ((regsUpTo x).map s.reg) }

/-- Load `v[k]` from `I + k` for the listed registers in turn (R145). -/
def loadRegs (s : State) (ks : List Reg) : State :=
  ks.foldl (fun t k => t.setReg k (t.mem.read (t.effective k.val))) s

/-- `Fx65`: `v[0]` to `v[x]` from `I` to `I + x` (R145). -/
def execLdRegs (x : Reg) (s : State) : Result :=
  guardRange (s.effective 0) (x.val + 1) <| fallThrough (loadRegs s (regsUpTo x))

end Sys2Proof.Machine
end

