-- ==== Sys2Proof/Machine/KeyTimer.lean ====
section
/-! DEFINITION. The key and timer instructions (46_key_timer.md). They run after the tick of their own step
(40_step_cycle.md R94). -/

namespace Sys2Proof.Machine

/-- `Ex9E`: skip if the key code equals the whole of `v[x]` (R160). -/
def execSkp (x : Reg) (s : State) : Result := skipIf (zextKey s.key == s.reg x) s

/-- `ExA1`: skip if the key code differs from `v[x]` (R161). -/
def execSknp (x : Reg) (s : State) : Result := skipIf (zextKey s.key != s.reg x) s

/-- `Fx07`: `v[x] <- dt`, `dt` as it is after this step's tick (R162). -/
def execLdVxDt (x : Reg) (s : State) : Result := fallThrough (s.setReg x s.dt)

/-- `Fx0A`: enter the key-wait; neither `pc` nor `v[x]` is written and the key is not looked at (R163). -/
def execLdVxK (x : Reg) (s : State) : Result := .next { s with waitKey := true, waitX := x }

/-- `Fx15`: `dt <- v[x]` (R164). -/
def execLdDtVx (x : Reg) (s : State) : Result := fallThrough { s with dt := s.reg x }

/-- `Fx18`: `st <- v[x]` (R165). -/
def execLdStVx (x : Reg) (s : State) : Result := fallThrough { s with st := s.reg x }

end Sys2Proof.Machine
end

