-- ==== Sys2Proof/Machine/Step.lean ====
section
/-! DEFINITION. The step (40_step_cycle.md R90): fetch; a blocked step services the key-wait; any other step ticks the
timers, decodes and executes. -/

namespace Sys2Proof.Machine

/-- One step: one atomic transition, or one condition and no change (R90). -/
def step (s : State) : Host.Outcome State Fault Refusal :=
  fetch s fun w =>
    endStep <|
      if s.waitKey then blockedStep s
      else
        match decodeWord w with
        | some i => exec i s.tickTimers
        | none => raise (.illegalInstruction w)

/-- The state with an instruction placed where `step` fetches next. `w` is numbered as spec/opcode_table.json numbers
the bits of its one 16-bit word; bits above `nbits` are 0. -/
def State.withFetchWord (s : State) (nbits w : Nat) : State :=
  s.placeWord (BitVec.ofNat 16 (w % 2 ^ nbits))

end Sys2Proof.Machine
end

