-- ==== Sys2Proof/Machine/Load.lean ====
section
/-! DEFINITION. Reset and load, one atomic operation of the host (70_reset_and_hazards.md R200 to R203). -/

namespace Sys2Proof.Machine

/-- `initialize(rom)`: `RomTooLarge` for a ROM longer than 0xE00 bytes (R203), else the reset state of 10_state.md R33
with the ROM at 0x200. The font is what its addresses read as (`unlisted`). `p` is what the host will present to the
coming steps (log entry 1). -/
def State.load (rom : List Byte) (p : InputPort) : Result :=
  if Config.romMax < rom.length then raise (.romTooLarge rom.length)
  else .next { State.reset with mem := State.reset.mem.store Config.progBase rom, port := p }

end Sys2Proof.Machine
end

