-- ==== Sys2Proof/Machine/HostView.lean ====
section
/-! DEFINITION. What the host sees of the CORE: the outputs `fb`, `sound_active` and `err` (00_scope.md R6), and the
state it steps from after each outcome (60_exceptions.md R171, R177, R178). -/

namespace Sys2Proof.Machine

/-- `sound_active = (st > 0)` (60_exceptions.md R186). -/
def State.soundActive (s : State) : Bool := decide (0 < s.st.toNat)

/-- A cell of the framebuffer as the host reads it between steps (45_display.md R153). -/
def State.pixel (s : State) (row : Fin 32) (col : Fin 64) : Bool := s.fb.cell row col

/-- The `err` output: the condition the last operation raised, or `None` (R171). No step is refused. -/
def errOf : Result → Option Fault
  | .next _ => none
  | .fault f => some f
  | .refused _ => none

/-- The numeric code of `err` (R170). -/
def errCode : Option Fault → Nat
  | none => 0
  | some (.illegalInstruction _) => 1
  | some (.stackOverflow _) => 2
  | some (.stackUnderflow _) => 3
  | some (.addressOutOfRange _) => 4
  | some (.romTooLarge _) => 5

/-- The `info` of a condition as a number (R170). -/
def Fault.info : Fault → Nat
  | .illegalInstruction w => w.toNat
  | .stackOverflow pc => pc.toNat
  | .stackUnderflow pc => pc.toNat
  | .addressOutOfRange a => a
  | .romTooLarge len => len

/-- The state after a step that started in `s`: a step that raises leaves every item of the state (R177); the inputs it
was given are used up. -/
def stateAfter (s : State) : Result → State
  | .next t => t
  | .fault _ => s.dropInput
  | .refused _ => s.dropInput

/-- One step as the host requests it: the state it may step from again, and `err` (R178: ignore-and-continue). -/
def hostStep (s : State) : State × Option Fault := (stateAfter s (step s), errOf (step s))

end Sys2Proof.Machine
end

