-- ==== Sys2Proof/Safety.lean ====
section
/-! DEFINITION. The terms claims are made in: the invariant of 10_state.md R35, frames, the end of a run, a safe run. -/

namespace Sys2Proof.Machine

/-- Every return address on the stack, that is below `sp`, is at most 0x1000 (R35). -/
abbrev State.stackBounded (s : State) : Prop := ∀ k : Fin 16, k.val < s.sp.val → s.stack[k].toNat ≤ 0x1000

/-- While the CORE waits, `pc` addresses an `Fx0A` that can be fetched and whose register is `wait_x` (R29, R35). -/
abbrev State.waitsAtKeyWait (s : State) : Prop :=
  s.waitKey = true → s.pc.toNat + 1 ≤ 0xFFF ∧ decodeWord (s.wordAt s.pc.toNat) = some (.ldVxK s.waitX)

/-- The invariant of R35, with the canonical form of memory. `0 <= sp <= 16` and the widths hold by the types. -/
abbrev State.Inv (s : State) : Prop :=
  s.mem.wf ∧ s.pc.toNat ≤ 0x10FE ∧ s.stackBounded ∧ s.waitsAtKeyWait

/-- `t` is `s` but for the registers in `written` and the program counter. -/
structure Frame (s t : State) (written : List Reg) : Prop where
  regs : ∀ r, r ∉ written → t.reg r = s.reg r
  I : t.I = s.I
  sp : t.sp = s.sp
  stack : t.stack = s.stack
  dt : t.dt = s.dt
  st : t.st = s.st
  waitKey : t.waitKey = s.waitKey
  waitX : t.waitX = s.waitX
  mem : ∀ a, t.mem.read a = s.mem.read a
  fb : t.fb = s.fb
  port : t.port = s.port

/-- A skip on condition `c` (41_flow.md R113 to R116): it completes, adds 4 to `pc` if `c` holds and else 2, changes
nothing else, and at 0xFFE, in a CORE that is not waiting, leaves a `pc` whose fetch raises (40_step_cycle.md R91). -/
def SkipsWhen (i : Instr) (s : State) (c : Prop) [Decidable c] : Prop :=
  ∃ t, exec i s = .next t ∧ t.pc = s.pc + (if c then 4 else 2) ∧ Frame s t [] ∧
    (s.waitKey = false → s.pc = 0xFFE → step t = .fault (.addressOutOfRange t.pc.toNat))

/-- An instruction that completes, gives register `x` the value `b`, advances `pc` by 2 and changes nothing else. -/
def WritesRegister (i : Instr) (s : State) (x : Reg) (b : Byte) : Prop :=
  ∃ t, exec i s = .next t ∧ t.reg x = b ∧ t.pc = s.pc + 2 ∧ Frame s t [x]

/-- A 1 bit of the sprite of `Dxyn` falls on the cell (45_display.md R151): bit `7 - b` of sprite byte `r`, counted from
`v[x]` to the right and `v[y]` down, both wrapping. -/
def State.spriteCovers (s : State) (x y : Reg) (n : Nibble) (row : Fin 32) (col : Fin 64) : Prop :=
  ∃ r b, r < n.toNat ∧ b < 8 ∧ row.val = ((s.reg y).toNat + r) % 32 ∧ col.val = ((s.reg x).toNat + b) % 64 ∧
    (s.mem.read (s.I.toNat + r)).getLsbD (7 - b) = true

/-- The word at `pc` is a jump to itself (70_reset_and_hazards.md R220 (b)). -/
def State.atJumpToSelf (s : State) : Bool :=
  decide (s.pc.toNat + 1 ≤ 0xFFF) && s.wordAt s.pc.toNat == encode (.jp (s.pc.setWidth 12))

/-- `END_OF_RUN`, the open parameter of R220 (92_eei_decisions.md D25): a claim about a run names its own. -/
inductive EndOfRun where
  /-- (a) a fixed number of steps -/
  | afterSteps (n : Nat)
  /-- (b) the first state at a jump to itself -/
  | jumpToSelf
  deriving DecidableEq, Repr

/-- Whether a run is over in state `s` after `k` steps. -/
def EndOfRun.reached : EndOfRun → Nat → State → Bool
  | .afterSteps n, k, _ => decide (n ≤ k)
  | .jumpToSelf, _, s => s.atJumpToSelf

/-- Step from `s`, `k` steps having been taken, until the run is over, a condition is raised, or `fuel` steps more. -/
def EndOfRun.run (e : EndOfRun) : Nat → Nat → State → Result
  | 0, _, s => .next s
  | fuel + 1, k, s =>
    if e.reached k s then .next s
    else
      match step s with
      | .next t => EndOfRun.run e fuel (k + 1) t
      | .fault f => .fault f
      | .refused r => .refused r

/-- A safe run of `n` steps: no condition is raised (60_exceptions.md R178: every claim takes this as a premise or
proves it). -/
def State.SafeFor (s : State) (n : Nat) : Prop := ∃ t, Sys2Proof.core.run n s = .next t

end Sys2Proof.Machine
end

