-- ==== Sys2Proof/Certificates/Slice0/Obligations.lean ====
section
/-! DEFINITION. The statements for the provers. Where a clause rests on a decision of the spec's own
(92_eei_decisions.md) or on an entry of the assumption log, the docstring says so. -/

open Sys2Proof Sys2Proof.Machine

/-! ### Encoding and decoding -/

/-- Words written out from R74 and R79, one a family, decode to their instructions, and illegal ones of R75 to none. -/
def Obligations.WordsOfTheSpecDecode : Prop :=
  decodeWord 0x00E0 = some .cls ∧ decodeWord 0x1204 = some (.jp 0x204) ∧ decodeWord 0x632A = some (.ldImm 3 0x2A) ∧
  decodeWord 0x8124 = some (.addReg 1 2) ∧ decodeWord 0xA300 = some (.ldI 0x300) ∧
  decodeWord 0xD015 = some (.drw 0 1 5) ∧ decodeWord 0xE29E = some (.skp 2) ∧ decodeWord 0xF255 = some (.stRegs 2) ∧
  decodeWord 0x0000 = none ∧ decodeWord 0x5341 = none ∧ decodeWord 0x8128 = none ∧ decodeWord 0xF2FF = none

/-- Decoding the word of an instruction gives the instruction back, for all 34 and every operand (R72, R74). -/
def Obligations.DecodeOfEncodeIsTheInstruction : Prop :=
  ∀ i : Instr, decodeWord (encode i) = some i

/-- Each legal word has one meaning: it is the word of the instruction it decodes to (R76). -/
def Obligations.EncodeOfDecodeIsTheWord : Prop :=
  ∀ (w : Word) (i : Instr), decodeWord w = some i → encode i = w

/-- The decoder and the opcode table of R74 agree on all 65,536 words: a word that decodes selects a row of the
instruction's mnemonic, and a word that selects no row is the one that does not decode. -/
def Obligations.DecoderAgreesWithOpcodeTable : Prop :=
  ∀ w : Word,
    (∀ i, decodeWord w = some i → ∃ r ∈ opcodeRows, r.mnemonic = i.mnemonic ∧ r.selects w = true) ∧
    (decodeWord w = none ↔ ∀ r ∈ opcodeRows, r.selects w = false)

/-- "The 34 match sets are pairwise disjoint" (R74), and there are 34. -/
def Obligations.OpcodeRowsAreDisjoint : Prop :=
  opcodeRows.length = 34 ∧
  ∀ r₁ ∈ opcodeRows, ∀ r₂ ∈ opcodeRows, ∀ w : Word, r₁.selects w = true → r₂.selects w = true → r₁ = r₂

/-- The illegal words are exactly those listed in R75 (a) to (e); part (b) rests on decision D20. -/
def Obligations.IllegalWordsAreThoseListed : Prop :=
  ∀ w : Word, decodeWord w = none ↔
    (w.toNat < 0x1000 ∧ w ≠ 0x00E0 ∧ w ≠ 0x00EE) ∨
    ((w.toNat / 0x1000 = 0x5 ∨ w.toNat / 0x1000 = 0x9) ∧ w.toNat % 0x10 ≠ 0) ∨
    (w.toNat / 0x1000 = 0x8 ∧ w.toNat % 0x10 ∈ [0x8, 0x9, 0xA, 0xB, 0xC, 0xD, 0xF]) ∨
    (w.toNat / 0x1000 = 0xE ∧ w.toNat % 0x100 ∉ [0x9E, 0xA1]) ∨
    (w.toNat / 0x1000 = 0xF ∧ w.toNat % 0x100 ∉ [0x07, 0x0A, 0x15, 0x18, 0x1E, 0x29, 0x33, 0x55, 0x65])

/-- An instruction written with its mnemonic and operands (R79) is well formed and read back as itself, and a written
form that is accepted is the one of its instruction. That the shifts are written with their ignored `y` is the model's
own choice (log entry 20). -/
def Obligations.WrittenFormsRoundTrip : Prop :=
  (∀ i : Instr, i.wellFormed = true ∧ i.written.instr = some i) ∧
  ∀ (w : Written) (i : Instr), w.instr = some i → i.written = w

/-! ### The step -/

/-- A step runs the decoded instruction (R90, R95): in a CORE that is not waiting, with a fetchable `pc` and a legal word
there, the timers tick, the instruction executes, and the inputs of the step are used up (log entry 1). -/
def Obligations.StepRunsTheDecodedInstruction : Prop :=
  ∀ (s : State) (i : Instr), s.pc.toNat + 1 ≤ 0xFFF → s.waitKey = false →
    decodeWord (s.wordAt s.pc.toNat) = some i →
      (∀ u, exec i s.tickTimers = .next u → step s = .next u.dropInput) ∧
      (∀ f, exec i s.tickTimers = .fault f → step s = .fault f)

/-- The fetched word is big-endian (R55), and in a CORE that is not waiting a fetch that would pass the top of memory
raises with `info = pc`, whatever else the step might have raised (R91, decision D5; R175 (a), R179). -/
def Obligations.FetchIsBigEndianAndGuarded : Prop :=
  (∀ (s : State) (a : Nat), (s.wordAt a).toNat = 0x100 * (s.mem.read a).toNat + (s.mem.read (a + 1)).toNat) ∧
  ∀ s : State, s.waitKey = false → 0xFFF < s.pc.toNat + 1 → step s = .fault (.addressOutOfRange s.pc.toNat)

/-- `IllegalInstruction` (R172): a non-blocked step whose word is illegal raises it with the word; nothing else does, no
blocked step does; `err` reports it, and of the state only the inputs of the step are used up (log entry 1). That the
timers are unchanged too is decision D6. -/
def Obligations.IllegalWordRaises : Prop :=
  ∀ (s : State) (w : Word),
    (step s = .fault (.illegalInstruction w) ↔
      s.pc.toNat + 1 ≤ 0xFFF ∧ s.waitKey = false ∧ w = s.wordAt s.pc.toNat ∧ decodeWord w = none) ∧
    (step s = .fault (.illegalInstruction w) → hostStep s = (s.dropInput, some (.illegalInstruction w)))

/-- The complete list of the conditions an instruction raises, with their `info` (R173, R174, R175 (b) to (e); the case
of `Fx1E` is decision D4). Every other instruction, and these in every other case, raises nothing. -/
def Obligations.InstructionConditionsAreExactly : Prop :=
  ∀ (i : Instr) (s : State) (f : Fault), exec i s = .fault f ↔
    ((∃ nnn, i = .call nnn) ∧ s.sp.val = 16 ∧ f = .stackOverflow s.pc) ∨
    (i = .ret ∧ s.sp.val = 0 ∧ f = .stackUnderflow s.pc) ∨
    (∃ x y n, i = .drw x y n ∧ 0 < n.toNat ∧ 0xFFF < s.I.toNat + n.toNat - 1 ∧
      f = .addressOutOfRange (s.I.toNat + n.toNat - 1)) ∨
    ((∃ x, i = .ldB x) ∧ 0xFFF < s.I.toNat + 2 ∧ f = .addressOutOfRange (s.I.toNat + 2)) ∨
    (∃ x, (i = .stRegs x ∨ i = .ldRegs x) ∧ 0xFFF < s.I.toNat + x.val ∧
      f = .addressOutOfRange (s.I.toNat + x.val)) ∨
    (∃ x, i = .addI x ∧ 0xFFFF < s.I.toNat + (s.reg x).toNat ∧
      f = .addressOutOfRange (s.I.toNat + (s.reg x).toNat))

/-- After a condition (R171, R177, R178): `err` reports it, no item of the state has changed, and a further step raises
the same condition whatever inputs the host presents. The unchanged state is decision D6, the missing latch D8. -/
def Obligations.ConditionsLeaveNoTraceAndRecur : Prop :=
  ∀ (s : State) (f : Fault), step s = .fault f →
    (hostStep s).2 = some f ∧ (∃ p, (hostStep s).1 = { s with port := p }) ∧
    ∀ p : InputPort, step { s with port := p } = .fault f

/-- Loading (R202, R203): a ROM longer than 0xE00 bytes is refused with its length, and no step ever raises
`RomTooLarge` (R176); any other is accepted, copied verbatim to 0x200, with the font at 0x000 and 0 elsewhere, and runs
from 0x200. With no ROM byte the first step raises `IllegalInstruction(0x0000)`. The zeros are decision D10. -/
def Obligations.LoadPlacesTheRom : Prop :=
  (∀ (rom : List Byte) (p : InputPort), 0xE00 < rom.length →
    State.load rom p = .fault (.romTooLarge rom.length)) ∧
  (∀ (s : State) (len : Nat), step s ≠ .fault (.romTooLarge len)) ∧
  (∀ (rom : List Byte) (p : InputPort), rom.length ≤ 0xE00 →
    ∃ t, State.load rom p = .next t ∧ t.pc = 0x200 ∧
      (∀ k, k < rom.length → rom[k]? = some (t.mem.read (0x200 + k))) ∧
      (∀ a, a < 80 → t.mem.read a = Config.font a) ∧
      (∀ a, 80 ≤ a → a < 0x200 ∨ 0x200 + rom.length ≤ a → t.mem.read a = 0)) ∧
  ∀ p : InputPort, ∃ t, State.load [] p = .next t ∧ step t = .fault (.illegalInstruction 0)

/-- The reset state (R33): every item; memory outside the font is decision D10. Nothing is said of the port, which is
the model's own (log entry 1). -/
def Obligations.ResetStateIsAsListed : Prop :=
  (∀ x, State.reset.reg x = 0) ∧ State.reset.I = 0 ∧ State.reset.pc = 0x200 ∧ State.reset.sp.val = 0 ∧
  (∀ k : Fin 16, State.reset.stack[k] = 0) ∧ State.reset.dt = 0 ∧ State.reset.st = 0 ∧
  State.reset.waitKey = false ∧ State.reset.waitX = 0 ∧
  (∀ row col, State.reset.pixel row col = false) ∧ State.reset.soundActive = false ∧
  (∀ a, a < 80 → State.reset.mem.read a = Config.font a) ∧ (∀ a, 80 ≤ a → State.reset.mem.read a = 0)

/-- The timers (R94): each ticks down by one, never below 0, in every committed non-blocked step, before the
instruction: `Fx07` delivers the ticked value, and what `Fx15` and `Fx18` write stands unticked. That a step that
raises undoes the tick is the spec's own decision D6 (log entry 16, unsafe for this very clause). -/
def Obligations.TimersTickBeforeTheInstruction : Prop :=
  (∀ (s t : State) (i : Instr), step s = .next t → s.waitKey = false → decodeWord (s.wordAt s.pc.toNat) = some i →
    ((∀ x, i ≠ .ldDtVx x) → t.dt.toNat = s.dt.toNat - 1) ∧
    ((∀ x, i ≠ .ldStVx x) → t.st.toNat = s.st.toNat - 1) ∧
    (∀ x, i = .ldVxDt x → (t.reg x).toNat = s.dt.toNat - 1) ∧
    (∀ x, i = .ldDtVx x → t.dt = s.reg x) ∧
    (∀ x, i = .ldStVx x → t.st = s.reg x)) ∧
  ∀ (s : State) (f : Fault), step s = .fault f → (hostStep s).1.dt = s.dt ∧ (hostStep s).1.st = s.st

/-- A blocked step with no key changes nothing (R92); only the inputs of the step are used up (log entry 1). The premise
is the part of R35, an inference of the spec, that rules out states no run reaches (log entry 6). -/
def Obligations.BlockedStepWithoutKeyChangesNothing : Prop :=
  ∀ s : State, s.waitsAtKeyWait → s.waitKey = true → s.key = 0 → step s = .next s.dropInput

/-- The freeze lasts (R99 (2), an inference of the spec): any number of steps without a key leave the whole state as it
was, and then a step with a key ends the wait. -/
def Obligations.KeyWaitFreezesUntilAKey : Prop :=
  ∀ (n : Nat) (s : State), s.waitsAtKeyWait → s.waitKey = true →
    (∀ k, k < n → (InputPort.advance^[k] s.port).now.key = 0) →
      core.run n s = .next { s with port := InputPort.advance^[n] s.port } ∧
      ((InputPort.advance^[n] s.port).now.key ≠ 0 → ∃ t, core.run (n + 1) s = .next t ∧ t.waitKey = false)

/-- A blocked step with a key ends the wait (R93): the raw key code to `v[wait_x]`, `pc + 2`, nothing else; that the
timers do not tick is an inference of the spec. -/
def Obligations.BlockedStepWithKeyEndsTheWait : Prop :=
  ∀ s : State, s.waitsAtKeyWait → s.waitKey = true → s.key ≠ 0 →
    ∃ t, step s = .next t ∧ (t.reg s.waitX).toNat = s.key.val ∧ t.waitKey = false ∧ t.pc = s.pc + 2 ∧
      Frame s { t with waitKey := s.waitKey, port := s.port } [s.waitX]

/-- `wait_key` (R28): a committed step leaves it set exactly when it dispatched an `Fx0A` or was blocked without a key. -/
def Obligations.KeyWaitIsEnteredOnlyByFx0A : Prop :=
  State.reset.waitKey = false ∧
  ∀ s t : State, step s = .next t →
    (t.waitKey = true ↔
      (s.waitKey = false ∧ ∃ x, decodeWord (s.wordAt s.pc.toNat) = some (.ldVxK x)) ∨
      (s.waitKey = true ∧ s.key = 0))

/-- The next program counter of every instruction (R96, R110 to R117, R160, R161), as a number: nothing wraps. The
premise is what a fetch guarantees. What the two key skips compare is the spec's own decision D14 (log entry 11). -/
def Obligations.NextPcOfEveryInstruction : Prop :=
  ∀ (i : Instr) (s t : State), s.pc.toNat + 1 ≤ 0xFFF → exec i s = .next t →
    match i with
    | .ret => s.stack[s.sp.val - 1]? = some t.pc
    | .jp nnn => t.pc.toNat = nnn.toNat
    | .call nnn => t.pc.toNat = nnn.toNat
    | .jpV0 nnn => t.pc.toNat = nnn.toNat + (s.reg 0).toNat
    | .seImm x nn => t.pc.toNat = s.pc.toNat + if s.reg x = nn then 4 else 2
    | .sneImm x nn => t.pc.toNat = s.pc.toNat + if s.reg x ≠ nn then 4 else 2
    | .seReg x y => t.pc.toNat = s.pc.toNat + if s.reg x = s.reg y then 4 else 2
    | .sneReg x y => t.pc.toNat = s.pc.toNat + if s.reg x ≠ s.reg y then 4 else 2
    | .skp x => t.pc.toNat = s.pc.toNat + if s.key.val = (s.reg x).toNat then 4 else 2
    | .sknp x => t.pc.toNat = s.pc.toNat + if s.key.val ≠ (s.reg x).toNat then 4 else 2
    | .ldVxK _ => t.pc = s.pc
    | _ => t.pc.toNat = s.pc.toNat + 2

/-! ### The whole machine -/

/-- Every step keeps the invariant of R35 and the canonical form of memory: `pc <= 0x10FE`, every return address at most
0x1000, a wait always at its `Fx0A` with the right register. -/
def Obligations.StepKeepsTheInvariant : Prop :=
  ∀ s t : State, s.Inv → step s = .next t → t.Inv

/-- The invariant holds at reset. -/
def Obligations.ResetMeetsTheInvariant : Prop := State.reset.Inv

/-- Every state a loaded ROM reaches, with any inputs, meets the invariant, and no blocked step in it raises (R35, R99
(5), inferences of the spec). -/
def Obligations.ReachableStatesMeetTheInvariant : Prop :=
  ∀ (rom : List Byte) (p : InputPort) (n : Nat) (s t : State),
    State.load rom p = .next s → core.run n s = .next t →
      t.Inv ∧ (t.waitKey = true → ∃ u, step t = .next u)

/-- Memory changes only by `Fx33` and `Fx55`, and only in the range they store to (R58, R59). -/
def Obligations.OnlyStoresChangeMemory : Prop :=
  ∀ s t : State, s.mem.wf → step s = .next t → ∀ a, t.mem.read a ≠ s.mem.read a →
    s.waitKey = false ∧ ∃ x,
      (decodeWord (s.wordAt s.pc.toNat) = some (.ldB x) ∧ s.I.toNat ≤ a ∧ a ≤ s.I.toNat + 2) ∨
      (decodeWord (s.wordAt s.pc.toNat) = some (.stRegs x) ∧ s.I.toNat ≤ a ∧ a ≤ s.I.toNat + x.val)

/-- The framebuffer changes only by `00E0` and `Dxyn` (R30), `I` only by `Annn`, `Fx1E` and `Fx29` (R23), `wait_x` only
by `Fx0A` (R29). -/
def Obligations.WritersOfFramebufferIndexAndPendingRegister : Prop :=
  ∀ s t : State, step s = .next t →
    (t.fb ≠ s.fb → ∃ i, decodeWord (s.wordAt s.pc.toNat) = some i ∧ (i = .cls ∨ ∃ x y n, i = .drw x y n)) ∧
    (t.I ≠ s.I → ∃ i, decodeWord (s.wordAt s.pc.toNat) = some i ∧
      ((∃ nnn, i = .ldI nnn) ∨ ∃ x, i = .addI x ∨ i = .ldF x)) ∧
    (t.waitX ≠ s.waitX → decodeWord (s.wordAt s.pc.toNat) = some (.ldVxK t.waitX))

/-- The call stack (R25, R26): an entry changes only by a call, which writes the entry at `sp` with `pc + 2`; `sp`
changes only by a call, by one up, or a return, by one down. -/
def Obligations.OnlyCallAndReturnTouchTheStack : Prop :=
  ∀ s t : State, step s = .next t →
    (∀ k : Fin 16, t.stack[k] ≠ s.stack[k] →
      (∃ nnn, decodeWord (s.wordAt s.pc.toNat) = some (.call nnn)) ∧ k.val = s.sp.val ∧ t.stack[k] = s.pc + 2) ∧
    (t.sp ≠ s.sp →
      ((∃ nnn, decodeWord (s.wordAt s.pc.toNat) = some (.call nnn)) ∧ t.sp.val = s.sp.val + 1) ∨
      (decodeWord (s.wordAt s.pc.toNat) = some .ret ∧ s.sp.val = t.sp.val + 1))

/-- The flag register (R22): an instruction that changes `v[15]` is one of the six flag writers or names it as its
destination; the flag writers leave 0 or 1 in it when it is not their destination. -/
def Obligations.WritersOfTheFlagRegister : Prop :=
  ∀ (i : Instr) (s t : State), exec i s = .next t →
    (t.reg 15 ≠ s.reg 15 →
      (∃ x y, i = .addReg x y ∨ i = .sub x y ∨ i = .subn x y ∨ i = .shr x y ∨ i = .shl x y ∨ ∃ n, i = .drw x y n) ∨
      (∃ nn, i = .ldImm 15 nn ∨ i = .addImm 15 nn ∨ i = .rnd 15 nn) ∨
      (∃ y, i = .ldReg 15 y ∨ i = .or 15 y ∨ i = .and 15 y ∨ i = .xor 15 y) ∨ i = .ldVxDt 15 ∨ i = .ldRegs 15) ∧
    (∀ x y : Reg, x ≠ 15 →
      (i = .addReg x y ∨ i = .sub x y ∨ i = .subn x y ∨ i = .shr x y ∨ i = .shl x y ∨ ∃ n, i = .drw x y n) →
      t.reg 15 = 0 ∨ t.reg 15 = 1)

/-- The inputs (R97): the key reaches no instruction but `Ex9E` and `ExA1`, the random byte none but `Cxnn`; every other
answers the same for every input, `Fx0A` included, and no input is kept in the state. -/
def Obligations.InputsReachOnlyTheirReaders : Prop :=
  ∀ (i : Instr) (s : State) (p : InputPort),
    ((∀ x, i ≠ .skp x ∧ i ≠ .sknp x) ∨ p.now.key = s.key) →
    ((∀ x nn, i ≠ .rnd x nn) ∨ p.now.rnd = s.rnd) →
      (∀ t, exec i s = .next t → exec i { s with port := p } = .next { t with port := p }) ∧
      (∀ f, exec i s = .fault f → exec i { s with port := p } = .fault f)

/-- Two canonical memories that read alike are the same data. The canonical form is the model's own (log entry 3). -/
def Obligations.CanonicalMemoryIsUnique : Prop :=
  ∀ m m' : Memory, m.wf → m'.wf → (∀ a, m.read a = m'.read a) → m = m'

/-- A store is seen by the next fetch (R64, an inference of the spec): `Fx55` over the following word makes the step
after it fetch the stored bytes. -/
def Obligations.StoredInstructionIsFetchedNext : Prop :=
  ∀ (s t : State) (x : Reg), s.mem.wf → s.pc.toNat + 1 ≤ 0xFFF → s.I.toNat = s.pc.toNat + 2 → 1 ≤ x.val →
    exec (.stRegs x) s = .next t →
      (t.wordAt t.pc.toNat).toNat = 0x100 * (s.reg 0).toNat + (s.reg 1).toNat

/-- A jump to itself (R220 (b)) is a fixed point but for the timers ticking down and the inputs used up. -/
def Obligations.JumpToSelfIsAFixedPoint : Prop :=
  ∀ s : State, s.waitKey = false → s.atJumpToSelf = true → step s = .next s.tickTimers.dropInput

/-- The model's own interface (log entry 4): a legal word placed for the next step is what that step runs. -/
def Obligations.PlacedWordRunsNext : Prop :=
  ∀ (s : State) (w : Nat) (i : Instr), s.mem.wf → decodeTableWord 16 w = some i →
    (∀ u, exec i (s.withFetchWord 16 w).tickTimers = .next u → step (s.withFetchWord 16 w) = .next u.dropInput) ∧
    (∀ f, exec i (s.withFetchWord 16 w).tickTimers = .fault f → step (s.withFetchWord 16 w) = .fault f)

/-! ### Control transfer (41_flow.md) -/

/-- `00EE` (R110). -/
def Obligations.RetPopsIntoPc : Prop :=
  encode .ret = 0x00EE ∧ ∀ s : State,
    (s.sp.val = 0 → exec .ret s = .fault (.stackUnderflow s.pc)) ∧
    (0 < s.sp.val → ∃ t, exec .ret s = .next t ∧ t.sp.val = s.sp.val - 1 ∧ s.stack[s.sp.val - 1]? = some t.pc ∧
      Frame s { t with sp := s.sp } [] ∧ (s.stackBounded → t.pc.toNat ≤ 0x1000) ∧
      (s.waitKey = false → 0xFFF ≤ t.pc.toNat → step t = .fault (.addressOutOfRange t.pc.toNat)))

/-- `1nnn` (R111). -/
def Obligations.JpSetsPc : Prop :=
  ∀ (nnn : Addr) (s : State),
    (encode (.jp nnn)).toNat = 0x1000 + nnn.toNat ∧
    ∃ t, exec (.jp nnn) s = .next t ∧ t.pc.toNat = nnn.toNat ∧ Frame s t [] ∧
      (s.waitKey = false → nnn = 0xFFF → step t = .fault (.addressOutOfRange 0xFFF))

/-- `2nnn` (R112). -/
def Obligations.CallPushesAndJumps : Prop :=
  ∀ (nnn : Addr) (s : State),
    (encode (.call nnn)).toNat = 0x2000 + nnn.toNat ∧
    (s.sp.val = 16 → exec (.call nnn) s = .fault (.stackOverflow s.pc)) ∧
    (s.sp.val < 16 → ∃ t, exec (.call nnn) s = .next t ∧ t.pc.toNat = nnn.toNat ∧ t.sp.val = s.sp.val + 1 ∧
      t.stack[s.sp.val]? = some (s.pc + 2) ∧ (∀ k : Fin 16, k.val ≠ s.sp.val → t.stack[k] = s.stack[k]) ∧
      Frame s { t with sp := s.sp, stack := s.stack } [] ∧
      ∃ u, exec .ret t = .next u ∧ u.pc = s.pc + 2 ∧ u.sp = s.sp)

/-- A return undoes a call (R112's property): with the stack a call left, `00EE` resumes at the instruction after it. -/
def Obligations.ReturnResumesAfterTheCall : Prop :=
  ∀ (nnn : Addr) (s t r : State), exec (.call nnn) s = .next t → r.stack = t.stack → r.sp = t.sp →
    ∃ u, exec .ret r = .next u ∧ u.pc = s.pc + 2 ∧ u.sp = s.sp

/-- `3xnn`, `4xnn`, `5xy0`, `9xy0` (R113 to R116). -/
def Obligations.SkipsOnComparison : Prop :=
  ∀ (x y : Reg) (nn : Byte) (s : State),
    ((encode (.seImm x nn)).toNat = 0x3000 + 0x100 * x.val + nn.toNat ∧ SkipsWhen (.seImm x nn) s (s.reg x = nn)) ∧
    ((encode (.sneImm x nn)).toNat = 0x4000 + 0x100 * x.val + nn.toNat ∧ SkipsWhen (.sneImm x nn) s (s.reg x ≠ nn)) ∧
    ((encode (.seReg x y)).toNat = 0x5000 + 0x100 * x.val + 0x10 * y.val ∧
      SkipsWhen (.seReg x y) s (s.reg x = s.reg y)) ∧
    ((encode (.sneReg x y)).toNat = 0x9000 + 0x100 * x.val + 0x10 * y.val ∧
      SkipsWhen (.sneReg x y) s (s.reg x ≠ s.reg y))

/-- `Bnnn` (R117). -/
def Obligations.JpV0AddsRegisterZero : Prop :=
  ∀ (nnn : Addr) (s : State),
    (encode (.jpV0 nnn)).toNat = 0xB000 + nnn.toNat ∧
    ∃ t, exec (.jpV0 nnn) s = .next t ∧ t.pc.toNat = nnn.toNat + (s.reg 0).toNat ∧ Frame s t [] ∧
      (s.waitKey = false → 0xFFE < t.pc.toNat → step t = .fault (.addressOutOfRange t.pc.toNat))

/-! ### Immediate and random (42_immediate_random.md) -/

/-- `6xnn` (R120). -/
def Obligations.LdImmLoadsTheImmediate : Prop :=
  ∀ (x : Reg) (nn : Byte) (s : State),
    (encode (.ldImm x nn)).toNat = 0x6000 + 0x100 * x.val + nn.toNat ∧ WritesRegister (.ldImm x nn) s x nn

/-- `7xnn` (R121): the sum modulo 256 to `v[x]` and to no flag; and the document's property of `6xnn` then `7xnn`. -/
def Obligations.AddImmWrapsWithoutFlag : Prop :=
  ∀ (x : Reg) (nn : Byte) (s : State),
    (encode (.addImm x nn)).toNat = 0x7000 + 0x100 * x.val + nn.toNat ∧
    (∃ t, exec (.addImm x nn) s = .next t ∧ (t.reg x).toNat = ((s.reg x).toNat + nn.toNat) % 256 ∧
      t.pc = s.pc + 2 ∧ Frame s t [x]) ∧
    ∃ u t, exec (.ldImm x nn) s = .next u ∧ exec (.addImm x nn) u = .next t ∧
      (t.reg x).toNat = (nn.toNat + nn.toNat) % 256 ∧ t.pc = s.pc + 4 ∧ (x ≠ 15 → t.reg 15 = s.reg 15)

/-- `Cxnn` (R122): the step's random byte, masked; the host may present any byte (decision D12, log entry 1). -/
def Obligations.RndMasksTheRandomByte : Prop :=
  ∀ (x : Reg) (nn : Byte) (s : State),
    (encode (.rnd x nn)).toNat = 0xC000 + 0x100 * x.val + nn.toNat ∧
    WritesRegister (.rnd x nn) s x (s.rnd &&& nn) ∧
    ∀ b : Byte, ∃ p : InputPort, WritesRegister (.rnd x nn) { s with port := p } x (b &&& nn)

/-! ### The ALU family (43_alu.md) -/

/-- `8xy0` to `8xy3` (R126 to R129); that they write no flag is decision D35. -/
def Obligations.CopyAndBitwiseOperations : Prop :=
  ∀ (x y : Reg) (s : State),
    (encode (.ldReg x y)).toNat = 0x8000 + 0x100 * x.val + 0x10 * y.val ∧
    (encode (.or x y)).toNat = 0x8001 + 0x100 * x.val + 0x10 * y.val ∧
    (encode (.and x y)).toNat = 0x8002 + 0x100 * x.val + 0x10 * y.val ∧
    (encode (.xor x y)).toNat = 0x8003 + 0x100 * x.val + 0x10 * y.val ∧
    WritesRegister (.ldReg x y) s x (s.reg y) ∧
    (∃ t, exec (.or x y) s = .next t ∧ t.pc = s.pc + 2 ∧ Frame s t [x] ∧
      ∀ k, (t.reg x).getLsbD k = ((s.reg x).getLsbD k || (s.reg y).getLsbD k)) ∧
    (∃ t, exec (.and x y) s = .next t ∧ t.pc = s.pc + 2 ∧ Frame s t [x] ∧
      ∀ k, (t.reg x).getLsbD k = ((s.reg x).getLsbD k && (s.reg y).getLsbD k)) ∧
    (∃ t, exec (.xor x y) s = .next t ∧ t.pc = s.pc + 2 ∧ Frame s t [x] ∧
      ∀ k, (t.reg x).getLsbD k = ((s.reg x).getLsbD k ^^ (s.reg y).getLsbD k))

/-- `8xy4` (R130): the sum modulo 256 and the carry; with `x = 15` the carry is what stays (decision D15, log entry 7). -/
def Obligations.AddRegWrapsAndSetsCarry : Prop :=
  ∀ (x y : Reg) (s : State),
    (encode (.addReg x y)).toNat = 0x8004 + 0x100 * x.val + 0x10 * y.val ∧
    ∃ t, exec (.addReg x y) s = .next t ∧
      (x ≠ 15 → (t.reg x).toNat = ((s.reg x).toNat + (s.reg y).toNat) % 256) ∧
      (t.reg 15).toNat = (if 255 < (s.reg x).toNat + (s.reg y).toNat then 1 else 0) ∧
      t.pc = s.pc + 2 ∧ Frame s t [x, 15]

/-- `8xy5` and `8xy7` (R131, R133): the difference modulo 256 and the complement of the borrow; with `x = 15` the flag is
what stays (decision D15, log entry 7). -/
def Obligations.SubtractionsWrapAndSetNotBorrow : Prop :=
  ∀ (x y : Reg) (s : State),
    (encode (.sub x y)).toNat = 0x8005 + 0x100 * x.val + 0x10 * y.val ∧
    (encode (.subn x y)).toNat = 0x8007 + 0x100 * x.val + 0x10 * y.val ∧
    (∃ t, exec (.sub x y) s = .next t ∧
      (x ≠ 15 → (t.reg x).toNat = ((s.reg x).toNat + 256 - (s.reg y).toNat) % 256) ∧
      (t.reg 15).toNat = (if (s.reg x).toNat < (s.reg y).toNat then 0 else 1) ∧
      t.pc = s.pc + 2 ∧ Frame s t [x, 15]) ∧
    (∃ t, exec (.subn x y) s = .next t ∧
      (x ≠ 15 → (t.reg x).toNat = ((s.reg y).toNat + 256 - (s.reg x).toNat) % 256) ∧
      (t.reg 15).toNat = (if (s.reg y).toNat < (s.reg x).toNat then 0 else 1) ∧
      t.pc = s.pc + 2 ∧ Frame s t [x, 15])

/-- `8xy6` and `8xyE` (R132, R134): one place, zero filled, the bit shifted out in `VF`; `y` is ignored (decision D31);
with `x = 15` the shift acts on the flag just written (decision D16, log entry 8). -/
def Obligations.ShiftsByOneInPlace : Prop :=
  ∀ (x y : Reg) (s : State),
    (encode (.shr x y)).toNat = 0x8006 + 0x100 * x.val + 0x10 * y.val ∧
    (encode (.shl x y)).toNat = 0x800E + 0x100 * x.val + 0x10 * y.val ∧
    (∃ t, exec (.shr x y) s = .next t ∧
      (x ≠ 15 → (t.reg x).toNat = (s.reg x).toNat / 2 ∧ (t.reg 15).toNat = (s.reg x).toNat % 2) ∧
      (x = 15 → t.reg 15 = 0) ∧ t.pc = s.pc + 2 ∧ Frame s t [x, 15]) ∧
    (∃ t, exec (.shl x y) s = .next t ∧
      (x ≠ 15 → (t.reg x).toNat = (s.reg x).toNat * 2 % 256 ∧ (t.reg 15).toNat = (s.reg x).toNat / 128) ∧
      (x = 15 → (t.reg 15).toNat = (s.reg 15).toNat / 128 * 2) ∧ t.pc = s.pc + 2 ∧ Frame s t [x, 15])

/-! ### The index register and memory (44_index_memory.md) -/

/-- `Annn` (R140). -/
def Obligations.LdISetsTheIndex : Prop :=
  ∀ (nnn : Addr) (s : State),
    (encode (.ldI nnn)).toNat = 0xA000 + nnn.toNat ∧
    ∃ t, exec (.ldI nnn) s = .next t ∧ t.I.toNat = nnn.toNat ∧ t.pc = s.pc + 2 ∧ Frame s { t with I := s.I } []

/-- `Fx1E` (R141): the sum in 16 bits, never truncated to 12; beyond 0xFFFF it raises (decision D4, log entry 9). -/
def Obligations.AddIAddsOrRaises : Prop :=
  ∀ (x : Reg) (s : State),
    (encode (.addI x)).toNat = 0xF01E + 0x100 * x.val ∧
    (s.I.toNat + (s.reg x).toNat ≤ 0xFFFF → ∃ t, exec (.addI x) s = .next t ∧
      t.I.toNat = s.I.toNat + (s.reg x).toNat ∧ t.pc = s.pc + 2 ∧ Frame s { t with I := s.I } []) ∧
    (0xFFFF < s.I.toNat + (s.reg x).toNat →
      exec (.addI x) s = .fault (.addressOutOfRange (s.I.toNat + (s.reg x).toNat)))

/-- `Fx29` (R142): five times the whole byte (decision D30, log entry 10), the glyph's address for a digit. -/
def Obligations.LdFPointsAtTheGlyph : Prop :=
  ∀ (x : Reg) (s : State),
    (encode (.ldF x)).toNat = 0xF029 + 0x100 * x.val ∧
    ∃ t, exec (.ldF x) s = .next t ∧ t.I.toNat = 5 * (s.reg x).toNat ∧ t.pc = s.pc + 2 ∧
      Frame s { t with I := s.I } [] ∧ ((s.reg x).toNat ≤ 15 → t.I.toNat + 4 < 80)

/-- `Fx33` (R143): the decimal digits to `I`, `I + 1`, `I + 2`, every other byte unchanged; refused whole beyond the top
of memory. -/
def Obligations.LdBStoresTheDigits : Prop :=
  ∀ (x : Reg) (s : State), s.mem.wf →
    (encode (.ldB x)).toNat = 0xF033 + 0x100 * x.val ∧
    (s.I.toNat ≤ 0xFFD → ∃ t, exec (.ldB x) s = .next t ∧
      (t.mem.read s.I.toNat).toNat = (s.reg x).toNat / 100 ∧
      (t.mem.read (s.I.toNat + 1)).toNat = (s.reg x).toNat / 10 % 10 ∧
      (t.mem.read (s.I.toNat + 2)).toNat = (s.reg x).toNat % 10 ∧
      (∀ a, a < s.I.toNat ∨ s.I.toNat + 2 < a → t.mem.read a = s.mem.read a) ∧
      t.pc = s.pc + 2 ∧ Frame s { t with mem := s.mem } []) ∧
    (0xFFD < s.I.toNat → exec (.ldB x) s = .fault (.addressOutOfRange (s.I.toNat + 2)))

/-- `Fx55` (R144): `v[k]` to `I + k` for `k` from 0 to `x`, every other byte unchanged, the registers too;
that `I` is unchanged is the spec's own decision D19 (R146, log entry 12, unsafe). -/
def Obligations.StRegsStoresTheRegisters : Prop :=
  ∀ (x : Reg) (s : State), s.mem.wf →
    (encode (.stRegs x)).toNat = 0xF055 + 0x100 * x.val ∧
    (s.I.toNat + x.val ≤ 0xFFF → ∃ t, exec (.stRegs x) s = .next t ∧
      (∀ k : Reg, k ≤ x → t.mem.read (s.I.toNat + k.val) = s.reg k) ∧
      (∀ a, a < s.I.toNat ∨ s.I.toNat + x.val < a → t.mem.read a = s.mem.read a) ∧
      t.pc = s.pc + 2 ∧ Frame s { t with mem := s.mem } []) ∧
    (0xFFF < s.I.toNat + x.val → exec (.stRegs x) s = .fault (.addressOutOfRange (s.I.toNat + x.val)))

/-- `Fx65` (R145): `v[k]` from `I + k` for `k` from 0 to `x`, the registers above unchanged, memory too; that
`I` is unchanged is the spec's own decision D19 (R146, log entry 12, unsafe). -/
def Obligations.LdRegsLoadsTheRegisters : Prop :=
  ∀ (x : Reg) (s : State),
    (encode (.ldRegs x)).toNat = 0xF065 + 0x100 * x.val ∧
    (s.I.toNat + x.val ≤ 0xFFF → ∃ t, exec (.ldRegs x) s = .next t ∧
      (∀ k : Reg, k ≤ x → t.reg k = s.mem.read (s.I.toNat + k.val)) ∧ (∀ k : Reg, x < k → t.reg k = s.reg k) ∧
      t.pc = s.pc + 2 ∧ Frame s { t with v := s.v } []) ∧
    (0xFFF < s.I.toNat + x.val → exec (.ldRegs x) s = .fault (.addressOutOfRange (s.I.toNat + x.val)))

/-! ### The display (45_display.md) -/

/-- `00E0` (R150). -/
def Obligations.ClsUnlightsEveryCell : Prop :=
  encode .cls = 0x00E0 ∧ ∀ s : State,
    ∃ t, exec .cls s = .next t ∧ (∀ row col, t.fb.cell row col = false) ∧ t.pc = s.pc + 2 ∧
      Frame s { t with fb := s.fb } []

/-- `Dxyn` (R151): each cell under a 1 bit of the sprite is inverted and no other, coordinates wrapping; `VF` is 1 exactly
when one of them was lit; refused whole beyond the top of memory. With `x` or `y` 15 the old `v[15]` is the coordinate
(decision D17, log entry 7); `n = 0` raises nothing (decision D27). -/
def Obligations.DrwInvertsTheSpriteCells : Prop :=
  ∀ (x y : Reg) (n : Nibble) (s : State),
    (encode (.drw x y n)).toNat = 0xD000 + 0x100 * x.val + 0x10 * y.val + n.toNat ∧
    (n.toNat = 0 ∨ s.I.toNat + n.toNat - 1 ≤ 0xFFF → ∃ t, exec (.drw x y n) s = .next t ∧
      (∀ row col, (s.spriteCovers x y n row col → t.fb.cell row col = !s.fb.cell row col) ∧
        (¬ s.spriteCovers x y n row col → t.fb.cell row col = s.fb.cell row col)) ∧
      ((∃ row col, s.spriteCovers x y n row col ∧ s.fb.cell row col = true) → t.reg 15 = 1) ∧
      (¬ (∃ row col, s.spriteCovers x y n row col ∧ s.fb.cell row col = true) → t.reg 15 = 0) ∧
      t.pc = s.pc + 2 ∧ Frame s { t with fb := s.fb } [15]) ∧
    (0 < n.toNat → 0xFFF < s.I.toNat + n.toNat - 1 →
      exec (.drw x y n) s = .fault (.addressOutOfRange (s.I.toNat + n.toNat - 1)))

/-- Drawing twice restores the framebuffer, and the second `VF` is 1 exactly when a 1 bit fell on an unlit cell before
the first draw (R152 (1), an inference of the spec). -/
def Obligations.DrawingTwiceRestores : Prop :=
  ∀ (x y : Reg) (n : Nibble) (s t : State), x ≠ 15 → y ≠ 15 → exec (.drw x y n) s = .next t →
    ∃ u, exec (.drw x y n) t = .next u ∧ u.fb = s.fb ∧
      (u.reg 15 = 1 ↔ ∃ row col, s.spriteCovers x y n row col ∧ s.fb.cell row col = false)

/-- The number of cells a draw changes is the number of 1 bits in the sprite's bytes (R152 (3), an inference of the
spec). -/
def Obligations.DrawChangesOneCellPerSpriteBit : Prop :=
  ∀ (x y : Reg) (n : Nibble) (s t : State), exec (.drw x y n) s = .next t →
    (Finset.univ.filter fun c : Fin 32 × Fin 64 => t.fb.cell c.1 c.2 ≠ s.fb.cell c.1 c.2).card =
      (Finset.univ.filter fun c : Fin n.toNat × Fin 8 =>
        (s.mem.read (s.I.toNat + c.1.val)).getLsbD c.2.val = true).card

/-! ### Key and timers (46_key_timer.md) -/

/-- `Ex9E` and `ExA1` (R160, R161): the whole `v[x]` against the key code as delivered (decision D14, log entry 11).
That a `pc` beyond the top of memory raises at the next fetch of a CORE that is not waiting is R91. -/
def Obligations.KeySkipsCompareTheKeyCode : Prop :=
  ∀ (x : Reg) (s : State),
    ((encode (.skp x)).toNat = 0xE09E + 0x100 * x.val ∧ SkipsWhen (.skp x) s (s.key.val = (s.reg x).toNat)) ∧
    ((encode (.sknp x)).toNat = 0xE0A1 + 0x100 * x.val ∧ SkipsWhen (.sknp x) s (s.key.val ≠ (s.reg x).toNat))

/-- `Fx07` (R162): `dt` to `v[x]`, which in a step is the value after the tick. -/
def Obligations.LdVxDtReadsTheDelayTimer : Prop :=
  ∀ (x : Reg) (s : State),
    (encode (.ldVxDt x)).toNat = 0xF007 + 0x100 * x.val ∧ WritesRegister (.ldVxDt x) s x s.dt ∧
    ∃ t, exec (.ldVxDt x) s.tickTimers = .next t ∧ (t.reg x).toNat = s.dt.toNat - 1 ∧ t.dt = t.reg x

/-- `Fx0A` (R163): the wait begins with `x` remembered; `pc`, `v[x]` and all else are not written. -/
def Obligations.LdVxKEntersTheWait : Prop :=
  ∀ (x : Reg) (s : State),
    (encode (.ldVxK x)).toNat = 0xF00A + 0x100 * x.val ∧
    ∃ t, exec (.ldVxK x) s = .next t ∧ t.waitKey = true ∧ t.waitX = x ∧ t.pc = s.pc ∧
      Frame s { t with waitKey := s.waitKey, waitX := s.waitX } []

/-- `Fx15` and `Fx18` (R164, R165): `v[x]` to a timer, the other unaffected; `sound_active` follows `st`. -/
def Obligations.TimerWrites : Prop :=
  ∀ (x : Reg) (s : State),
    (encode (.ldDtVx x)).toNat = 0xF015 + 0x100 * x.val ∧ (encode (.ldStVx x)).toNat = 0xF018 + 0x100 * x.val ∧
    (∃ t, exec (.ldDtVx x) s = .next t ∧ t.dt = s.reg x ∧ t.pc = s.pc + 2 ∧ Frame s { t with dt := s.dt } []) ∧
    (∃ t, exec (.ldStVx x) s = .next t ∧ t.st = s.reg x ∧ (t.soundActive = true ↔ s.reg x ≠ 0) ∧
      t.pc = s.pc + 2 ∧ Frame s { t with st := s.st } [])
end

