-- ==== Sys2Proof/Laws/Config.lean ====
section
/-! SUPPORT. The record of 00_scope.md R7 against the types and the layout the other definitions use: a width of the
record is the width of the type that carries it. -/

namespace Sys2Proof.Config

theorem byte_is_register_width : Byte = BitVec parameters.registerWidth := rfl
theorem byte_is_timer_width : Byte = BitVec parameters.timerWidth := rfl
theorem word_is_index_width : Word = BitVec parameters.indexWidth := rfl
theorem word_is_pc_width : Word = BitVec parameters.pcWidth := rfl
theorem word_is_stack_entry_width : Word = BitVec parameters.stackEntryWidth := rfl
theorem word_is_instruction_width : Word = BitVec parameters.instructionWidth := rfl
theorem addr_is_address_width : Addr = BitVec parameters.addressWidth := rfl
theorem reg_numbers_the_registers : Reg = Fin parameters.nregs := rfl
theorem framebuffer_is_height_by_width :
    Machine.Framebuffer = Vector (Vector Bool parameters.width) parameters.height := rfl

/-- The values of `sp`, 0 to `STACK_DEPTH`, need exactly its width (10_state.md R25). -/
theorem sp_needs_its_width :
    parameters.stackDepth < 2 ^ parameters.spWidth ∧ 2 ^ (parameters.spWidth - 1) ≤ parameters.stackDepth := by decide

/-- A valid address has the 12 meaningful bits of `I`. -/
theorem memory_is_address_space : parameters.memSize = 2 ^ parameters.addressWidth := rfl

/-- `ROM_MAX` is what `PROG_BASE` leaves of memory. -/
theorem rom_fills_memory : parameters.progBase + parameters.romMax = parameters.memSize := rfl

/-- The font ends below the program. -/
theorem font_below_program : parameters.fontBase + parameters.fontLen ≤ parameters.progBase := by decide

/-- An instruction lies in memory as that many bits, in bytes. -/
theorem encodeBytes_length (i : Instr) : 8 * (encodeBytes i).length = parameters.instructionWidth := rfl

end Sys2Proof.Config
end

