-- ==== Sys2Proof/Laws/Decode.lean ====
section
/-! SUPPORT. The fields of a word as numbers, encoded words as numbers, and so the fields of an encoded word, one lemma a
field and format (00_scope.md R8, 30_encoding.md R71, R72). -/

namespace Sys2Proof

@[simp] theorem regBits_toNat (r : Reg) : (regBits r).toNat = r.val := rfl

/-! ### Fields as numbers -/

theorem opField_toNat (w : Word) : (opField w).toNat = w.toNat / 0x1000 := by
  simp only [opField, BitVec.extractLsb'_toNat, Nat.shiftRight_eq_div_pow]; omega

theorem xField_val (w : Word) : (xField w).val = w.toNat / 0x100 % 0x10 := by
  simp only [xField, BitVec.val_toFin, BitVec.extractLsb'_toNat, Nat.shiftRight_eq_div_pow]

theorem yField_val (w : Word) : (yField w).val = w.toNat / 0x10 % 0x10 := by
  simp only [yField, BitVec.val_toFin, BitVec.extractLsb'_toNat, Nat.shiftRight_eq_div_pow]

theorem nField_toNat (w : Word) : (nField w).toNat = w.toNat % 0x10 := by
  simp only [nField, BitVec.extractLsb'_toNat, Nat.shiftRight_eq_div_pow]; omega

theorem nnField_toNat (w : Word) : (nnField w).toNat = w.toNat % 0x100 := by
  simp only [nnField, BitVec.extractLsb'_toNat, Nat.shiftRight_eq_div_pow]; omega

theorem nnnField_toNat (w : Word) : (nnnField w).toNat = w.toNat % 0x1000 := by
  simp only [nnnField, BitVec.extractLsb'_toNat, Nat.shiftRight_eq_div_pow]; omega

/-! ### Encoded words as numbers -/

/-- Two fields side by side as a number. -/
theorem append_toNat {m n : Nat} (a : BitVec m) (b : BitVec n) : (a ++ b).toNat = a.toNat * 2 ^ n + b.toNat := by
  rw [BitVec.toNat_append, ← Nat.shiftLeft_add_eq_or_of_lt b.isLt, Nat.shiftLeft_eq]

/-- Format `ADDR`. -/
theorem encodeAddr_toNat (op : Nibble) (a : Addr) : (encodeAddr op a).toNat = op.toNat * 0x1000 + a.toNat :=
  append_toNat op a

/-- Formats `REG_IMM` and `REG_SUB`. -/
theorem encodeRegImm_toNat (op : Nibble) (x : Reg) (nn : Byte) :
    (encodeRegImm op x nn).toNat = op.toNat * 0x1000 + x.val * 0x100 + nn.toNat := by
  refine (append_toNat op _).trans ?_
  rw [append_toNat (regBits x) nn, regBits_toNat]; omega

/-- Formats `REG_REG` and `REG_REG_N`. -/
theorem encodeRegReg_toNat (op : Nibble) (x y : Reg) (n : Nibble) :
    (encodeRegReg op x y n).toNat = op.toNat * 0x1000 + x.val * 0x100 + y.val * 0x10 + n.toNat := by
  refine (append_toNat op _).trans ?_
  rw [append_toNat (regBits x) _, append_toNat (regBits y) n, regBits_toNat, regBits_toNat]; omega

/-! ### Fields of encoded words -/

@[simp] theorem opField_encodeAddr (op : Nibble) (a : Addr) : opField (encodeAddr op a) = op := by
  apply BitVec.eq_of_toNat_eq; rw [opField_toNat, encodeAddr_toNat]; omega

@[simp] theorem nnnField_encodeAddr (op : Nibble) (a : Addr) : nnnField (encodeAddr op a) = a := by
  apply BitVec.eq_of_toNat_eq; rw [nnnField_toNat, encodeAddr_toNat]; omega

@[simp] theorem opField_encodeRegImm (op : Nibble) (x : Reg) (nn : Byte) : opField (encodeRegImm op x nn) = op := by
  apply BitVec.eq_of_toNat_eq; rw [opField_toNat, encodeRegImm_toNat]; omega

@[simp] theorem xField_encodeRegImm (op : Nibble) (x : Reg) (nn : Byte) : xField (encodeRegImm op x nn) = x := by
  apply Fin.ext; rw [xField_val, encodeRegImm_toNat]; omega

@[simp] theorem nnField_encodeRegImm (op : Nibble) (x : Reg) (nn : Byte) : nnField (encodeRegImm op x nn) = nn := by
  apply BitVec.eq_of_toNat_eq; rw [nnField_toNat, encodeRegImm_toNat]; omega

@[simp] theorem opField_encodeRegReg (op : Nibble) (x y : Reg) (n : Nibble) :
    opField (encodeRegReg op x y n) = op := by
  apply BitVec.eq_of_toNat_eq; rw [opField_toNat, encodeRegReg_toNat]; omega

@[simp] theorem xField_encodeRegReg (op : Nibble) (x y : Reg) (n : Nibble) :
    xField (encodeRegReg op x y n) = x := by
  apply Fin.ext; rw [xField_val, encodeRegReg_toNat]; omega

@[simp] theorem yField_encodeRegReg (op : Nibble) (x y : Reg) (n : Nibble) :
    yField (encodeRegReg op x y n) = y := by
  apply Fin.ext; rw [yField_val, encodeRegReg_toNat]; omega

@[simp] theorem nField_encodeRegReg (op : Nibble) (x y : Reg) (n : Nibble) :
    nField (encodeRegReg op x y n) = n := by
  apply BitVec.eq_of_toNat_eq; rw [nField_toNat, encodeRegReg_toNat]; omega

/-! ### Bits of encoded words, and the masks of the opcode table (R74) -/

theorem encodeAddr_getLsbD (op : Nibble) (a : Addr) (i : Nat) :
    (encodeAddr op a).getLsbD i = if i < 12 then a.getLsbD i else op.getLsbD (i - 12) := by
  exact (BitVec.getLsbD_append (x := op) (y := a)).trans (by split <;> simp [*])

theorem encodeRegImm_getLsbD (op : Nibble) (x : Reg) (nn : Byte) (i : Nat) :
    (encodeRegImm op x nn).getLsbD i =
      if i < 8 then nn.getLsbD i else if i < 12 then (regBits x).getLsbD (i - 8) else op.getLsbD (i - 12) := by
  refine (encodeAddr_getLsbD op _ i).trans ?_
  rw [show (regBits x ++ nn : Addr).getLsbD i = _ from BitVec.getLsbD_append (x := regBits x) (y := nn)]
  by_cases h : i < 8
  · simp [h, show i < 12 by omega]
  · simp [h]

theorem encodeRegReg_getLsbD (op : Nibble) (x y : Reg) (n : Nibble) (i : Nat) :
    (encodeRegReg op x y n).getLsbD i =
      if i < 4 then n.getLsbD i
      else if i < 8 then (regBits y).getLsbD (i - 4)
      else if i < 12 then (regBits x).getLsbD (i - 8) else op.getLsbD (i - 12) := by
  refine (encodeRegImm_getLsbD op x _ i).trans ?_
  rw [show (regBits y ++ n : Byte).getLsbD i = _ from BitVec.getLsbD_append (x := regBits y) (y := n)]
  by_cases h : i < 4
  · simp [h, show i < 8 by omega]
  · simp [h]

/-- The mask of the formats `ADDR`, `REG_IMM` and `REG_REG_N` keeps the top nibble. -/
theorem and_F000 (w : Word) : w &&& 0xF000 = encodeAddr (opField w) 0 := by
  apply BitVec.eq_of_getLsbD_eq
  intro i hi
  rw [encodeAddr_getLsbD]
  interval_cases i <;> simp [opField]

/-- The mask of the format `REG_REG` keeps the top nibble and `n`. -/
theorem and_F00F (w : Word) : w &&& 0xF00F = encodeRegReg (opField w) 0 0 (nField w) := by
  apply BitVec.eq_of_getLsbD_eq
  intro i hi
  rw [encodeRegReg_getLsbD]
  interval_cases i <;> simp [opField, nField, regBits]

/-- The mask of the format `REG_SUB` keeps the top nibble and `nn`. -/
theorem and_F0FF (w : Word) : w &&& 0xF0FF = encodeRegImm (opField w) 0 (nnField w) := by
  apply BitVec.eq_of_getLsbD_eq
  intro i hi
  rw [encodeRegImm_getLsbD]
  interval_cases i <;> simp [opField, nnField, regBits]

/-! ### Bytes of a word (20_memory.md R55) -/

theorem wordOfBytes_toNat (hi lo : Byte) : (wordOfBytes hi lo).toNat = hi.toNat * 0x100 + lo.toNat :=
  append_toNat hi lo

theorem hiByte_toNat (w : Word) : (hiByte w).toNat = w.toNat / 0x100 := by
  simp only [hiByte, BitVec.extractLsb'_toNat, Nat.shiftRight_eq_div_pow]; omega

theorem loByte_toNat (w : Word) : (loByte w).toNat = w.toNat % 0x100 := by
  simp only [loByte, BitVec.extractLsb'_toNat, Nat.shiftRight_eq_div_pow]; omega

@[simp] theorem wordOfBytes_hiByte_loByte (w : Word) : wordOfBytes (hiByte w) (loByte w) = w := by
  apply BitVec.eq_of_toNat_eq; rw [wordOfBytes_toNat, hiByte_toNat, loByte_toNat]; omega

/-- Decoding the two bytes of a word is decoding the word. -/
theorem decodeBytes_bytesOfWord (w : Word) (rest : List Byte) :
    decodeBytes (bytesOfWord w ++ rest) = (decodeWord w).elim (.error (.illegal w)) fun i => .ok (i, rest) := by
  simp only [bytesOfWord, List.cons_append, List.nil_append, decodeBytes, wordOfBytes_hiByte_loByte]
  cases decodeWord w <;> rfl

end Sys2Proof
end

