-- ==== Sys2Proof/Laws/State.lean ====
section
/-! SUPPORT. One lemma a field for each named update of the state, and the register accessors over them. -/

namespace Sys2Proof.Machine

variable (s : State)

/-! ### `setReg` -/

@[simp] theorem State.setReg_v (x : Reg) (b : Byte) : (s.setReg x b).v = s.v.set x b := rfl
@[simp] theorem State.setReg_I (x : Reg) (b : Byte) : (s.setReg x b).I = s.I := rfl
@[simp] theorem State.setReg_pc (x : Reg) (b : Byte) : (s.setReg x b).pc = s.pc := rfl
@[simp] theorem State.setReg_sp (x : Reg) (b : Byte) : (s.setReg x b).sp = s.sp := rfl
@[simp] theorem State.setReg_stack (x : Reg) (b : Byte) : (s.setReg x b).stack = s.stack := rfl
@[simp] theorem State.setReg_dt (x : Reg) (b : Byte) : (s.setReg x b).dt = s.dt := rfl
@[simp] theorem State.setReg_st (x : Reg) (b : Byte) : (s.setReg x b).st = s.st := rfl
@[simp] theorem State.setReg_waitKey (x : Reg) (b : Byte) : (s.setReg x b).waitKey = s.waitKey := rfl
@[simp] theorem State.setReg_waitX (x : Reg) (b : Byte) : (s.setReg x b).waitX = s.waitX := rfl
@[simp] theorem State.setReg_mem (x : Reg) (b : Byte) : (s.setReg x b).mem = s.mem := rfl
@[simp] theorem State.setReg_fb (x : Reg) (b : Byte) : (s.setReg x b).fb = s.fb := rfl
@[simp] theorem State.setReg_port (x : Reg) (b : Byte) : (s.setReg x b).port = s.port := rfl

/-! ### `setPc` -/

@[simp] theorem State.setPc_v (a : Word) : (s.setPc a).v = s.v := rfl
@[simp] theorem State.setPc_I (a : Word) : (s.setPc a).I = s.I := rfl
@[simp] theorem State.setPc_pc (a : Word) : (s.setPc a).pc = a := rfl
@[simp] theorem State.setPc_sp (a : Word) : (s.setPc a).sp = s.sp := rfl
@[simp] theorem State.setPc_stack (a : Word) : (s.setPc a).stack = s.stack := rfl
@[simp] theorem State.setPc_dt (a : Word) : (s.setPc a).dt = s.dt := rfl
@[simp] theorem State.setPc_st (a : Word) : (s.setPc a).st = s.st := rfl
@[simp] theorem State.setPc_waitKey (a : Word) : (s.setPc a).waitKey = s.waitKey := rfl
@[simp] theorem State.setPc_waitX (a : Word) : (s.setPc a).waitX = s.waitX := rfl
@[simp] theorem State.setPc_mem (a : Word) : (s.setPc a).mem = s.mem := rfl
@[simp] theorem State.setPc_fb (a : Word) : (s.setPc a).fb = s.fb := rfl
@[simp] theorem State.setPc_port (a : Word) : (s.setPc a).port = s.port := rfl

/-! ### `advance` -/

@[simp] theorem State.advance_v : s.advance.v = s.v := rfl
@[simp] theorem State.advance_I : s.advance.I = s.I := rfl
@[simp] theorem State.advance_pc : s.advance.pc = s.pc + 2 := rfl
@[simp] theorem State.advance_sp : s.advance.sp = s.sp := rfl
@[simp] theorem State.advance_stack : s.advance.stack = s.stack := rfl
@[simp] theorem State.advance_dt : s.advance.dt = s.dt := rfl
@[simp] theorem State.advance_st : s.advance.st = s.st := rfl
@[simp] theorem State.advance_waitKey : s.advance.waitKey = s.waitKey := rfl
@[simp] theorem State.advance_waitX : s.advance.waitX = s.waitX := rfl
@[simp] theorem State.advance_mem : s.advance.mem = s.mem := rfl
@[simp] theorem State.advance_fb : s.advance.fb = s.fb := rfl
@[simp] theorem State.advance_port : s.advance.port = s.port := rfl

/-! ### `tickTimers` -/

@[simp] theorem State.tickTimers_v : s.tickTimers.v = s.v := rfl
@[simp] theorem State.tickTimers_I : s.tickTimers.I = s.I := rfl
@[simp] theorem State.tickTimers_pc : s.tickTimers.pc = s.pc := rfl
@[simp] theorem State.tickTimers_sp : s.tickTimers.sp = s.sp := rfl
@[simp] theorem State.tickTimers_stack : s.tickTimers.stack = s.stack := rfl
@[simp] theorem State.tickTimers_dt : s.tickTimers.dt = countDown s.dt := rfl
@[simp] theorem State.tickTimers_st : s.tickTimers.st = countDown s.st := rfl
@[simp] theorem State.tickTimers_waitKey : s.tickTimers.waitKey = s.waitKey := rfl
@[simp] theorem State.tickTimers_waitX : s.tickTimers.waitX = s.waitX := rfl
@[simp] theorem State.tickTimers_mem : s.tickTimers.mem = s.mem := rfl
@[simp] theorem State.tickTimers_fb : s.tickTimers.fb = s.fb := rfl
@[simp] theorem State.tickTimers_port : s.tickTimers.port = s.port := rfl

/-! ### `dropInput` -/

@[simp] theorem State.dropInput_v : s.dropInput.v = s.v := rfl
@[simp] theorem State.dropInput_I : s.dropInput.I = s.I := rfl
@[simp] theorem State.dropInput_pc : s.dropInput.pc = s.pc := rfl
@[simp] theorem State.dropInput_sp : s.dropInput.sp = s.sp := rfl
@[simp] theorem State.dropInput_stack : s.dropInput.stack = s.stack := rfl
@[simp] theorem State.dropInput_dt : s.dropInput.dt = s.dt := rfl
@[simp] theorem State.dropInput_st : s.dropInput.st = s.st := rfl
@[simp] theorem State.dropInput_waitKey : s.dropInput.waitKey = s.waitKey := rfl
@[simp] theorem State.dropInput_waitX : s.dropInput.waitX = s.waitX := rfl
@[simp] theorem State.dropInput_mem : s.dropInput.mem = s.mem := rfl
@[simp] theorem State.dropInput_fb : s.dropInput.fb = s.fb := rfl
@[simp] theorem State.dropInput_port : s.dropInput.port = s.port.advance := rfl

/-! ### `resolveKeyWait` -/

@[simp] theorem State.resolveKeyWait_v (k : Key) : (s.resolveKeyWait k).v = s.v.set s.waitX (zextKey k) := rfl
@[simp] theorem State.resolveKeyWait_I (k : Key) : (s.resolveKeyWait k).I = s.I := rfl
@[simp] theorem State.resolveKeyWait_pc (k : Key) : (s.resolveKeyWait k).pc = s.pc + 2 := rfl
@[simp] theorem State.resolveKeyWait_sp (k : Key) : (s.resolveKeyWait k).sp = s.sp := rfl
@[simp] theorem State.resolveKeyWait_stack (k : Key) : (s.resolveKeyWait k).stack = s.stack := rfl
@[simp] theorem State.resolveKeyWait_dt (k : Key) : (s.resolveKeyWait k).dt = s.dt := rfl
@[simp] theorem State.resolveKeyWait_st (k : Key) : (s.resolveKeyWait k).st = s.st := rfl
@[simp] theorem State.resolveKeyWait_waitKey (k : Key) : (s.resolveKeyWait k).waitKey = false := rfl
@[simp] theorem State.resolveKeyWait_waitX (k : Key) : (s.resolveKeyWait k).waitX = s.waitX := rfl
@[simp] theorem State.resolveKeyWait_mem (k : Key) : (s.resolveKeyWait k).mem = s.mem := rfl
@[simp] theorem State.resolveKeyWait_fb (k : Key) : (s.resolveKeyWait k).fb = s.fb := rfl
@[simp] theorem State.resolveKeyWait_port (k : Key) : (s.resolveKeyWait k).port = s.port := rfl

/-! ### Registers -/

/-- The range of the stack pointer, in plain numbers (10_state.md R25). -/
theorem State.sp_le : s.sp.val ≤ 16 := Nat.le_of_lt_succ s.sp.isLt

/-- The register file of a state written out. -/
@[simp] theorem State.reg_mk (v I pc sp stack dt st waitKey waitX mem fb port) (x : Reg) :
    (State.mk v I pc sp stack dt st waitKey waitX mem fb port).reg x = v[x] := rfl

/-- A register reads back what was written to it, the others what they held (10_state.md R21: none is hard-wired). -/
@[simp] theorem State.reg_setReg (x y : Reg) (b : Byte) :
    (s.setReg x b).reg y = if y = x then b else s.reg y := by
  simp only [State.reg, State.setReg, Fin.getElem_fin, Vector.getElem_set, Fin.ext_iff, eq_comm]

@[simp] theorem State.reg_setPc (a : Word) (x : Reg) : (s.setPc a).reg x = s.reg x := rfl
@[simp] theorem State.reg_advance (x : Reg) : s.advance.reg x = s.reg x := rfl
@[simp] theorem State.reg_tickTimers (x : Reg) : s.tickTimers.reg x = s.reg x := rfl
@[simp] theorem State.reg_dropInput (x : Reg) : s.dropInput.reg x = s.reg x := rfl

@[simp] theorem State.reg_resolveKeyWait (k : Key) (x : Reg) :
    (s.resolveKeyWait k).reg x = if x = s.waitX then zextKey k else s.reg x :=
  s.reg_setReg s.waitX x (zextKey k)

/-- The registers `v[0]` to `v[x]`. -/
@[simp] theorem mem_regsUpTo (x k : Reg) : k ∈ regsUpTo x ↔ k ≤ x := by simp [regsUpTo]

/-- `Fx55` and `Fx65` name `x + 1` registers, in order: the `j`-th is `v[j]` (30_encoding.md R72). -/
theorem regsUpTo_eq_range (x : Reg) : (regsUpTo x).map Fin.val = List.range (x.val + 1) := by
  revert x; decide

@[simp] theorem regsUpTo_length (x : Reg) : (regsUpTo x).length = x.val + 1 := by
  simpa using congrArg List.length (regsUpTo_eq_range x)

theorem regsUpTo_nodup (x : Reg) : (regsUpTo x).Nodup := (List.nodup_finRange 16).filter _

/-! ### Widening -/

@[simp] theorem zextAddr_toNat (a : Addr) : (zextAddr a).toNat = a.toNat := by
  simp only [zextAddr, BitVec.toNat_setWidth]; omega

@[simp] theorem zextByte_toNat (b : Byte) : (zextByte b).toNat = b.toNat := by
  simp only [zextByte, BitVec.toNat_setWidth]; omega

@[simp] theorem zextKey_toNat (k : Key) : (zextKey k).toNat = k.val := by
  simp only [zextKey, BitVec.toNat_ofNat]; omega

/-- Falling through advances `pc` by 2 when that does not pass 0xFFFF. -/
theorem State.advance_pc_toNat (h : s.pc.toNat ≤ 0xFFFD) : s.advance.pc.toNat = s.pc.toNat + 2 := by
  simp only [State.advance_pc, BitVec.toNat_add, BitVec.ofNat_eq_ofNat, BitVec.toNat_ofNat]; omega

/-- A timer's tick as a number: down by one, never below 0 (40_step_cycle.md R94). -/
theorem countDown_toNat (t : Byte) : (countDown t).toNat = t.toNat - 1 := by
  unfold countDown
  split
  · simp [*]
  · have : t.toNat ≠ 0 := fun h => ‹¬t = 0› (BitVec.eq_of_toNat_eq h)
    simp only [BitVec.toNat_sub, BitVec.ofNat_eq_ofNat, BitVec.toNat_ofNat]; omega

end Sys2Proof.Machine
end

