-- ==== Sys2Proof/Laws/Display.lean ====
section
/-! SUPPORT. The framebuffer: a flip inverts one cell, a clear unlights all, cells determine it (10_state.md R30). -/

namespace Sys2Proof.Machine

/-- Two framebuffers with the same cells are the same. -/
theorem Framebuffer.ext_cell {f g : Framebuffer} (h : ∀ row col, f.cell row col = g.cell row col) : f = g := by
  apply Vector.ext
  intro i hi
  apply Vector.ext
  intro j hj
  exact h ⟨i, hi⟩ ⟨j, hj⟩

@[simp] theorem Framebuffer.cell_clear (row : Fin 32) (col : Fin 64) : Framebuffer.clear.cell row col = false := by
  simp [Framebuffer.cell, Framebuffer.clear]

/-- A flip inverts its cell and no other. -/
theorem Framebuffer.cell_flip (f : Framebuffer) (row row' : Fin 32) (col col' : Fin 64) :
    (f.flip row col).cell row' col' = if row' = row ∧ col' = col then !f.cell row col else f.cell row' col' := by
  simp only [Framebuffer.cell, Framebuffer.flip, Fin.getElem_fin, Vector.getElem_set, Fin.ext_iff]
  by_cases hr : row.val = row'.val
  · by_cases hc : col.val = col'.val
    · simp [hr, hc]
    · simp [hr, hc, Ne.symm hc]
  · simp [hr, Ne.symm hr]

@[simp] theorem wrapRow_val (r : Nat) : (wrapRow r).val = r % 32 := rfl
@[simp] theorem wrapCol_val (c : Nat) : (wrapCol c).val = c % 64 := rfl

@[simp] theorem plot_fst (cx cy r b : Nat) (c : Canvas) :
    (plot cx cy r b c).1 = c.1.flip (wrapRow (cy + r)) (wrapCol (cx + b)) := rfl

@[simp] theorem plot_snd (cx cy r b : Nat) (c : Canvas) :
    (plot cx cy r b c).2 = (c.2 || c.1.cell (wrapRow (cy + r)) (wrapCol (cx + b))) := rfl

/-- Drawing no row changes nothing (45_display.md R151, corner case 1). -/
@[simp] theorem drawSprite_zero (m : Memory) (cx cy base : Nat) (c : Canvas) : drawSprite m cx cy base 0 c = c := rfl

/-- A sprite of `n + 1` rows is one of `n` rows and then row `n`. -/
theorem drawSprite_succ (m : Memory) (cx cy base n : Nat) (c : Canvas) :
    drawSprite m cx cy base (n + 1) c = drawRow cx cy n (m.read (base + n)) (drawSprite m cx cy base n c) := by
  simp [drawSprite, List.range_succ]

end Sys2Proof.Machine
end

