-- ==== Sys2Proof/Laws/Memory.lean ====
section
/-! SUPPORT. Memory: a write changes one byte, every operation keeps the canonical form, and the reset memory has it
(20_memory.md R59, R62). -/

namespace Sys2Proof.Machine

/-- What an unlisted address reads as, in plain numbers (10_state.md R33). -/
theorem unlisted_eq (a : Nat) : unlisted a = if a < 80 then Config.font a else 0 := by simp [unlisted]

@[simp] theorem Memory.read_nil (a : Nat) : Memory.read [] a = unlisted a := rfl

@[simp] theorem Memory.read_cons (k : Nat) (b : Byte) (m : Memory) (a : Nat) :
    Memory.read ((k, b) :: m) a = if k = a then b else Memory.read m a := rfl

/-- An address below every listed one reads as unlisted. -/
theorem Memory.read_of_lt {m : Memory} {a : Nat} (h : ∀ c ∈ m, a < c.1) : m.read a = unlisted a := by
  induction m with
  | nil => rfl
  | cons c m ih =>
    have := h c (by simp)
    rw [Memory.read_cons, if_neg (by omega), ih fun d hd => h d (by simp [hd])]

/-- The cells of a memory after a write: the written one, or old ones at other addresses. -/
theorem Memory.mem_write {m : Memory} {a : Nat} {b : Byte} (h : m.Pairwise (fun c d => c.1 < d.1)) {c : Host.Cell}
    (hc : c ∈ m.write a b) : (c = (a, b) ∧ b ≠ unlisted a) ∨ (c ∈ m ∧ c.1 ≠ a) := by
  induction m with
  | nil =>
    simp only [Memory.write] at hc
    split at hc
    · simp at hc
    · exact .inl ⟨by simpa using hc, ‹_›⟩
  | cons d m ih =>
    obtain ⟨hd, hm⟩ := List.pairwise_cons.1 h
    simp only [Memory.write] at hc
    split at hc
    · rcases List.mem_cons.1 hc with rfl | hc
      · exact .inr ⟨by simp, by omega⟩
      · rcases ih hm hc with h1 | ⟨h1, h2⟩
        · exact .inl h1
        · exact .inr ⟨by simp [h1], h2⟩
    · have old : ∀ e ∈ (if d.1 = a then m else (d.1, d.2) :: m), e ∈ d :: m ∧ e.1 ≠ a := by
        intro e he
        split at he
        · exact ⟨by simp [he], by have := hd e he; omega⟩
        · rcases List.mem_cons.1 he with rfl | he
          · exact ⟨by simp, ‹_›⟩
          · exact ⟨by simp [he], by have := hd e he; omega⟩
      split at hc
      · exact .inr (old c hc)
      · rcases List.mem_cons.1 hc with rfl | hc
        · exact .inl ⟨rfl, ‹_›⟩
        · exact .inr (old c hc)

/-- A write keeps the addresses strictly rising. -/
theorem Memory.write_sorted {m : Memory} (a : Nat) (b : Byte) (h : m.Pairwise (fun c d => c.1 < d.1)) :
    (m.write a b).Pairwise (fun c d => c.1 < d.1) := by
  induction m with
  | nil => simp only [Memory.write]; split <;> simp
  | cons d m ih =>
    obtain ⟨hd, hm⟩ := List.pairwise_cons.1 h
    simp only [Memory.write]
    split
    · refine List.pairwise_cons.2 ⟨fun e he => ?_, ih hm⟩
      rcases Memory.mem_write hm he with ⟨rfl, -⟩ | ⟨h1, -⟩
      · assumption
      · exact hd e h1
    · have tail : (if d.1 = a then m else (d.1, d.2) :: m).Pairwise (fun c d => c.1 < d.1) := by
        split
        · exact hm
        · exact h
      split
      · exact tail
      · refine List.pairwise_cons.2 ⟨fun e he => ?_, tail⟩
        show a < e.1
        split at he
        · have := hd e he; omega
        · rcases List.mem_cons.1 he with rfl | he
          · show a < d.1; omega
          · have := hd e he; omega

/-- A write inside memory keeps the canonical form. -/
theorem Memory.write_wf {m : Memory} {a : Nat} (b : Byte) (h : m.wf) (ha : a < Config.memSize) : (m.write a b).wf := by
  refine ⟨Memory.write_sorted a b h.1, fun c hc => ?_⟩
  rcases Memory.mem_write h.1 hc with ⟨rfl, hb⟩ | ⟨h1, -⟩
  · exact ⟨ha, hb⟩
  · exact h.2 c h1

/-- A read after a write: the written byte at its address, every other byte as before. -/
theorem Memory.read_write {m : Memory} (a : Nat) (b : Byte) (c : Nat) (h : m.Pairwise (fun c d => c.1 < d.1)) :
    (m.write a b).read c = if c = a then b else m.read c := by
  induction m with
  | nil =>
    simp only [Memory.write]
    split
    · simp only [Memory.read_nil]; split <;> simp [*]
    · simp only [Memory.read_cons, eq_comm]
  | cons d m ih =>
    obtain ⟨k, e⟩ := d
    obtain ⟨hd, hm⟩ := List.pairwise_cons.1 h
    simp only [Memory.write]
    split
    · simp only [Memory.read_cons, ih hm]
      by_cases hk : k = c
      · rw [if_pos hk, if_pos hk, if_neg (by omega)]
      · simp [hk]
    · by_cases hka : k = a
      · subst hka
        have hlow : Memory.read m k = unlisted k := Memory.read_of_lt fun x hx => hd x hx
        simp only [if_true]
        by_cases hc : k = c
        · subst hc
          split <;> simp [*]
        · rw [if_neg (Ne.symm hc)]
          split <;> simp [hc]
      · have hlow : Memory.read ((k, e) :: m) a = unlisted a := by
          refine Memory.read_of_lt fun x hx => ?_
          rcases List.mem_cons.1 hx with rfl | hx
          · show a < k; omega
          · have := hd x hx; simp only at this; omega
        simp only [if_neg hka]
        by_cases hc : a = c
        · subst hc
          split
          · rw [hlow, if_pos rfl]; exact Eq.symm ‹_›
          · simp
        · rw [if_neg (Ne.symm hc)]
          split <;> simp [hc]

@[simp] theorem Memory.store_nil (m : Memory) (a : Nat) : m.store a [] = m := rfl

@[simp] theorem Memory.store_cons (m : Memory) (a : Nat) (b : Byte) (bs : List Byte) :
    m.store a (b :: bs) = (m.write a b).store (a + 1) bs := rfl

theorem Memory.store_sorted {m : Memory} (a : Nat) (bs : List Byte) (h : m.Pairwise (fun c d => c.1 < d.1)) :
    (m.store a bs).Pairwise (fun c d => c.1 < d.1) := by
  induction bs generalizing m a with
  | nil => exact h
  | cons b bs ih => exact ih (a + 1) (Memory.write_sorted a b h)

/-- A store of bytes that stays inside memory keeps the canonical form. -/
theorem Memory.store_wf {m : Memory} {a : Nat} {bs : List Byte} (h : m.wf) (ha : a + bs.length ≤ Config.memSize) :
    (m.store a bs).wf := by
  induction bs generalizing m a with
  | nil => exact h
  | cons b bs ih =>
    simp only [List.length_cons] at ha
    exact ih (Memory.write_wf b h (by omega)) (by omega)

/-- A read after a store of bytes: the stored byte inside the range, every other byte as before. -/
theorem Memory.read_store {m : Memory} (a : Nat) (bs : List Byte) (c : Nat)
    (h : m.Pairwise (fun c d => c.1 < d.1)) :
    (m.store a bs).read c = if a ≤ c then bs.getD (c - a) (m.read c) else m.read c := by
  induction bs generalizing m a with
  | nil => simp
  | cons b bs ih =>
    rw [Memory.store_cons, ih (a + 1) (Memory.write_sorted a b h), Memory.read_write a b c h]
    by_cases h1 : a + 1 ≤ c
    · obtain ⟨d, hd⟩ : ∃ d, c - a = d + 1 := ⟨c - a - 1, by omega⟩
      have hca : c ≠ a := by omega
      have hac : a ≤ c := by omega
      simp only [if_pos h1, if_pos hac, if_neg hca, hd, show c - (a + 1) = d by omega]
      simp
    · rw [if_neg h1]
      by_cases h2 : c = a
      · simp [h2]
      · rw [if_neg h2, if_neg (by omega)]

/-- Memory at reset lists nothing, which is canonical. -/
theorem reset_mem_wf : State.reset.mem.wf := by simp [State.reset, Memory.wf]

/-- What memory reads as at reset (10_state.md R33). -/
theorem reset_read (a : Nat) : State.reset.mem.read a = if a < 80 then Config.font a else 0 := unlisted_eq a

end Sys2Proof.Machine
end

