-- ==== Sys2Proof/Laws/Ops.lean ====
section
/-! SUPPORT. What each shared operation, each meaning that can raise, and the step can do, said once. -/

namespace Sys2Proof.Machine

/-! ### The bounds check (20_memory.md R56) -/

/-- A range inside memory, or empty, passes. -/
theorem guardRange_of_fits {first len : Nat} {k : Result} (h : len = 0 ∨ first + len ≤ 0x1000) :
    guardRange first len k = k := if_neg (by omega)

/-- A range that passes 0xFFF raises its last address. -/
theorem guardRange_of_exceeds {first len : Nat} {k : Result} (h0 : 0 < len) (h : 0x1000 < first + len) :
    guardRange first len k = .fault (.addressOutOfRange (first + len - 1)) := if_pos (by omega)

/-- What the check answers, in full. -/
theorem guardRange_cases (first len : Nat) (k : Result) :
    ((len = 0 ∨ first + len ≤ 0x1000) ∧ guardRange first len k = k) ∨
      (0 < len ∧ 0x1000 < first + len ∧
        guardRange first len k = .fault (.addressOutOfRange (first + len - 1))) := by
  by_cases h : len = 0 ∨ first + len ≤ 0x1000
  · exact .inl ⟨h, guardRange_of_fits h⟩
  · exact .inr ⟨by omega, by omega, guardRange_of_exceeds (by omega) (by omega)⟩

@[simp] theorem State.effective_zero (s : State) : s.effective 0 = s.I.toNat := rfl

/-! ### Finishing an instruction -/

@[simp] theorem fallThrough_eq (s : State) : fallThrough s = .next s.advance := rfl

theorem skipIf_true (s : State) : skipIf true s = .next (s.setPc (s.pc + 4)) := rfl
theorem skipIf_false (s : State) : skipIf false s = .next (s.setPc (s.pc + 2)) := rfl

/-! ### The call stack -/

/-- A call with room pushes `pc + 2` and jumps; without, it raises (41_flow.md R112). -/
theorem callTo_cases (target : Word) (s : State) :
    (∃ h : s.sp.val < 16, callTo target s =
      .next { s with stack := s.stack.set s.sp.val (s.pc + 2), sp := ⟨s.sp.val + 1, Nat.succ_lt_succ h⟩, pc := target }) ∨
    (s.sp.val = 16 ∧ callTo target s = .fault (.stackOverflow s.pc)) := by
  by_cases h : s.sp.val < 16
  · exact .inl ⟨h, dif_pos h⟩
  · exact .inr ⟨by have := s.sp_le; omega, dif_neg h⟩

/-- A return pops the top entry into `pc`; on an empty stack it raises (41_flow.md R110). -/
theorem popReturn_cases (s : State) :
    (∃ h : 0 < s.sp.val, popReturn s =
      .next { s with sp := ⟨s.sp.val - 1, by omega⟩, pc := s.stack[s.sp.val - 1]'(by omega) }) ∨
    (s.sp.val = 0 ∧ popReturn s = .fault (.stackUnderflow s.pc)) := by
  by_cases h : 0 < s.sp.val
  · exact .inl ⟨h, dif_pos h⟩
  · exact .inr ⟨by omega, dif_neg h⟩

/-! ### The parts of a step -/

theorem fetch_of_inside {s : State} {k : Word → Result} (h : s.pc.toNat + 1 ≤ 0xFFF) :
    fetch s k = k (s.wordAt s.pc.toNat) := if_neg (by omega)

theorem fetch_of_outside {s : State} {k : Word → Result} (h : 0xFFF < s.pc.toNat + 1) :
    fetch s k = .fault (.addressOutOfRange s.pc.toNat) := if_pos h

@[simp] theorem endStep_next (t : State) : endStep (.next t) = .next t.dropInput := rfl
@[simp] theorem endStep_fault (f : Fault) : endStep (.fault f) = .fault f := rfl

theorem endStep_eq_next {r : Result} {t : State} : endStep r = .next t ↔ ∃ u, r = .next u ∧ t = u.dropInput := by
  cases r <;> simp [endStep, eq_comm]

theorem endStep_eq_fault {r : Result} {f : Fault} : endStep r = .fault f ↔ r = .fault f := by
  cases r <;> simp [endStep]

/-- The inputs past the list are the free values; those of the list come first. -/
@[simp] theorem InputPort.now_cons (i : StepInput) (l : List StepInput) (d : Nat) : InputPort.now ⟨i :: l, d⟩ = i := rfl

@[simp] theorem InputPort.advance_cons (i : StepInput) (l : List StepInput) (d : Nat) :
    InputPort.advance ⟨i :: l, d⟩ = ⟨l, d + 1⟩ := rfl

/-- A load of memory bytes into registers keeps everything but the registers. -/
theorem loadRegs_fields (s : State) (ks : List Reg) :
    loadRegs s ks = { s with v := (loadRegs s ks).v } := by
  induction ks generalizing s with
  | nil => rfl
  | cons k ks ih => exact ih (s.setReg k (s.mem.read (s.effective k.val)))

/-- The register file after a load: the listed registers hold their bytes, the others what they held. -/
theorem loadRegs_reg (s : State) (ks : List Reg) (r : Reg) :
    (loadRegs s ks).reg r = if r ∈ ks then s.mem.read (s.I.toNat + r.val) else s.reg r := by
  induction ks generalizing s with
  | nil => simp [loadRegs]
  | cons k ks ih =>
    have h : loadRegs s (k :: ks) = loadRegs (s.setReg k (s.mem.read (s.effective k.val))) ks := rfl
    rw [h, ih]
    by_cases h1 : r ∈ ks
    · simp [h1]
    · by_cases h2 : r = k
      · simp [h2, State.effective]
      · simp [h1, h2]

/-! ### The meanings that can raise -/

theorem execAddI_cases (x : Reg) (s : State) :
    (s.I.toNat + (s.reg x).toNat ≤ 0xFFFF ∧
      execAddI x s = .next ({ s with I := .ofNat 16 (s.I.toNat + (s.reg x).toNat) } : State).advance) ∨
    (0xFFFF < s.I.toNat + (s.reg x).toNat ∧
      execAddI x s = .fault (.addressOutOfRange (s.I.toNat + (s.reg x).toNat))) := by
  by_cases h : 0xFFFF < s.I.toNat + (s.reg x).toNat
  · exact .inr ⟨h, if_pos h⟩
  · exact .inl ⟨by omega, if_neg h⟩

theorem execLdB_cases (x : Reg) (s : State) :
    (s.I.toNat + 3 ≤ 0x1000 ∧ execLdB x s =
      .next ({ s with mem := s.mem.store s.I.toNat (decimalDigits (s.reg x)) } : State).advance) ∨
    (0x1000 < s.I.toNat + 3 ∧ execLdB x s = .fault (.addressOutOfRange (s.I.toNat + 2))) := by
  rcases guardRange_cases s.I.toNat 3
    (fallThrough { s with mem := s.mem.store s.I.toNat (decimalDigits (s.reg x)) }) with ⟨h, e⟩ | ⟨-, h, e⟩
  · exact .inl ⟨by omega, e⟩
  · exact .inr ⟨h, e⟩

theorem execStRegs_cases (x : Reg) (s : State) :
    (s.I.toNat + x.val + 1 ≤ 0x1000 ∧ execStRegs x s =
      .next ({ s with mem := s.mem.store s.I.toNat ((regsUpTo x).map s.reg) } : State).advance) ∨
    (0x1000 < s.I.toNat + x.val + 1 ∧ execStRegs x s = .fault (.addressOutOfRange (s.I.toNat + x.val))) := by
  rcases guardRange_cases s.I.toNat (x.val + 1)
    (fallThrough { s with mem := s.mem.store s.I.toNat ((regsUpTo x).map s.reg) }) with ⟨h, e⟩ | ⟨-, h, e⟩
  · exact .inl ⟨by omega, e⟩
  · exact .inr ⟨by omega, e⟩

theorem execLdRegs_cases (x : Reg) (s : State) :
    (s.I.toNat + x.val + 1 ≤ 0x1000 ∧ execLdRegs x s = .next (loadRegs s (regsUpTo x)).advance) ∨
    (0x1000 < s.I.toNat + x.val + 1 ∧ execLdRegs x s = .fault (.addressOutOfRange (s.I.toNat + x.val))) := by
  rcases guardRange_cases s.I.toNat (x.val + 1) (fallThrough (loadRegs s (regsUpTo x))) with ⟨h, e⟩ | ⟨-, h, e⟩
  · exact .inl ⟨by omega, e⟩
  · exact .inr ⟨by omega, e⟩

/-- The framebuffer and the collision a draw leaves. -/
abbrev State.drawn (s : State) (x y : Reg) (n : Nibble) : Canvas :=
  drawSprite s.mem (s.reg x).toNat (s.reg y).toNat s.I.toNat n.toNat (s.fb, false)

theorem execDrw_cases (x y : Reg) (n : Nibble) (s : State) :
    ((n.toNat = 0 ∨ s.I.toNat + n.toNat ≤ 0x1000) ∧ execDrw x y n s =
      .next ({ s.setReg 15 (flagByte (s.drawn x y n).2) with fb := (s.drawn x y n).1 } : State).advance) ∨
    (0 < n.toNat ∧ 0x1000 < s.I.toNat + n.toNat ∧
      execDrw x y n s = .fault (.addressOutOfRange (s.I.toNat + n.toNat - 1))) := by
  rcases guardRange_cases s.I.toNat n.toNat
    (fallThrough { s.setReg flagReg (flagByte (s.drawn x y n).2) with fb := (s.drawn x y n).1 }) with
    ⟨h, e⟩ | ⟨h0, h, e⟩
  · exact .inl ⟨h, e⟩
  · exact .inr ⟨h0, h, e⟩

/-- No instruction is refused. -/
theorem exec_ne_refused (i : Instr) (s : State) (r : Refusal) : exec i s ≠ .refused r := by
  cases i with
  | call nnn =>
    rcases callTo_cases (zextAddr nnn) s with ⟨h, e⟩ | ⟨h, e⟩ <;> exact fun hr => by
      rw [show exec (.call nnn) s = _ from e] at hr; cases hr
  | ret =>
    rcases popReturn_cases s with ⟨h, e⟩ | ⟨h, e⟩ <;> exact fun hr => by
      rw [show exec .ret s = _ from e] at hr; cases hr
  | drw x y n =>
    rcases execDrw_cases x y n s with ⟨h, e⟩ | ⟨-, h, e⟩ <;> exact fun hr => by
      rw [show exec (.drw x y n) s = _ from e] at hr; cases hr
  | addI x =>
    rcases execAddI_cases x s with ⟨h, e⟩ | ⟨h, e⟩ <;> exact fun hr => by
      rw [show exec (.addI x) s = _ from e] at hr; cases hr
  | ldB x =>
    rcases execLdB_cases x s with ⟨h, e⟩ | ⟨h, e⟩ <;> exact fun hr => by
      rw [show exec (.ldB x) s = _ from e] at hr; cases hr
  | stRegs x =>
    rcases execStRegs_cases x s with ⟨h, e⟩ | ⟨h, e⟩ <;> exact fun hr => by
      rw [show exec (.stRegs x) s = _ from e] at hr; cases hr
  | ldRegs x =>
    rcases execLdRegs_cases x s with ⟨h, e⟩ | ⟨h, e⟩ <;> exact fun hr => by
      rw [show exec (.ldRegs x) s = _ from e] at hr; cases hr
  | _ => exact fun hr => nomatch hr

/-! ### The step -/

/-- The ways a step can commit (40_step_cycle.md R90): a blocked step with no key, one with a key, or an instruction. -/
theorem step_eq_next {s t : State} :
    step s = .next t ↔ s.pc.toNat + 1 ≤ 0xFFF ∧
      ((s.waitKey = true ∧ s.key = 0 ∧ t = s.dropInput) ∨
       (s.waitKey = true ∧ s.key ≠ 0 ∧ t = (s.resolveKeyWait s.key).dropInput) ∨
       (s.waitKey = false ∧ ∃ i u, decodeWord (s.wordAt s.pc.toNat) = some i ∧ exec i s.tickTimers = .next u ∧
          t = u.dropInput)) := by
  by_cases hp : 0xFFF < s.pc.toNat + 1
  · simp only [step, fetch_of_outside hp]
    constructor
    · intro h; cases h
    · rintro ⟨h, -⟩; omega
  · have hp' : s.pc.toNat + 1 ≤ 0xFFF := by omega
    simp only [step, fetch_of_inside hp', hp', true_and]
    cases hw : s.waitKey with
    | true =>
      by_cases hk : s.key = 0
      · simp [blockedStep, hk, eq_comm]
      · simp [blockedStep, hk, eq_comm]
    | false =>
      cases hd : decodeWord (s.wordAt s.pc.toNat) with
      | none => simp [raise]
      | some i => simp [endStep_eq_next]

/-- The ways a step can raise (60_exceptions.md R179): at the fetch, at the decoding, or in the instruction. -/
theorem step_eq_fault {s : State} {f : Fault} :
    step s = .fault f ↔
      (0xFFF < s.pc.toNat + 1 ∧ f = .addressOutOfRange s.pc.toNat) ∨
      (s.pc.toNat + 1 ≤ 0xFFF ∧ s.waitKey = false ∧
        ((decodeWord (s.wordAt s.pc.toNat) = none ∧ f = .illegalInstruction (s.wordAt s.pc.toNat)) ∨
         ∃ i, decodeWord (s.wordAt s.pc.toNat) = some i ∧ exec i s.tickTimers = .fault f)) := by
  by_cases hp : 0xFFF < s.pc.toNat + 1
  · simp only [step, fetch_of_outside hp, hp, true_and]
    constructor
    · intro h; injection h with h; exact .inl h.symm
    · rintro (rfl | ⟨h, -⟩)
      · rfl
      · omega
  · have hp' : s.pc.toNat + 1 ≤ 0xFFF := by omega
    simp only [step, fetch_of_inside hp', hp, hp', true_and, false_and, false_or]
    cases hw : s.waitKey with
    | true => by_cases hk : s.key = 0 <;> simp [blockedStep, hk]
    | false =>
      cases hd : decodeWord (s.wordAt s.pc.toNat) with
      | none => simp [raise, eq_comm]
      | some i => simp [endStep_eq_fault]

/-- No step is refused. -/
theorem step_ne_refused (s : State) (r : Refusal) : step s ≠ .refused r := by
  intro h
  by_cases hp : 0xFFF < s.pc.toNat + 1
  · rw [step, fetch_of_outside hp] at h; cases h
  · rw [step, fetch_of_inside (by omega)] at h
    cases hw : s.waitKey with
    | true => by_cases hk : s.key = 0 <;> simp [hw, blockedStep, hk] at h
    | false =>
      cases hd : decodeWord (s.wordAt s.pc.toNat) with
      | none => simp [hw, hd, raise] at h
      | some i =>
        cases he : exec i s.tickTimers with
        | next u => simp [hw, hd, he] at h
        | fault f => simp [hw, hd, he] at h
        | refused r' => exact exec_ne_refused i _ _ he

end Sys2Proof.Machine
end

