-- ==== Sys2Proof/Laws/Meanings.lean ====
section
/-! SUPPORT. What a meaning that can raise has done when it answers a next state, which items each meaning leaves
alone, and a run one step at a time: cited in place of unfolding `exec`. -/

namespace Sys2Proof.Machine

/-! ### The meanings that can raise, when they do not -/

theorem exec_call_next {nnn : Addr} {s t : State} (h : exec (.call nnn) s = .next t) :
    ∃ h : s.sp.val < 16, t =
      { s with stack := s.stack.set s.sp.val (s.pc + 2), sp := ⟨s.sp.val + 1, Nat.succ_lt_succ h⟩, pc := zextAddr nnn } := by
  rcases callTo_cases (zextAddr nnn) s with ⟨h1, e⟩ | ⟨h1, e⟩ <;> rw [show exec (.call nnn) s = _ from e] at h
  · injection h with h; exact ⟨h1, h.symm⟩
  · cases h

theorem exec_ret_next {s t : State} (h : exec .ret s = .next t) :
    ∃ h : 0 < s.sp.val, t =
      { s with sp := ⟨s.sp.val - 1, by omega⟩, pc := s.stack[s.sp.val - 1]'(by omega) } := by
  rcases popReturn_cases s with ⟨h1, e⟩ | ⟨h1, e⟩ <;> rw [show exec .ret s = _ from e] at h
  · injection h with h; exact ⟨h1, h.symm⟩
  · cases h

theorem exec_drw_next {x y : Reg} {n : Nibble} {s t : State} (h : exec (.drw x y n) s = .next t) :
    (n.toNat = 0 ∨ s.I.toNat + n.toNat ≤ 0x1000) ∧
      t = ({ s.setReg 15 (flagByte (s.drawn x y n).2) with fb := (s.drawn x y n).1 } : State).advance := by
  rcases execDrw_cases x y n s with ⟨h1, e⟩ | ⟨h0, h1, e⟩ <;> rw [show exec (.drw x y n) s = _ from e] at h
  · injection h with h; exact ⟨h1, h.symm⟩
  · cases h

theorem exec_addI_next {x : Reg} {s t : State} (h : exec (.addI x) s = .next t) :
    s.I.toNat + (s.reg x).toNat ≤ 0xFFFF ∧
      t = ({ s with I := .ofNat 16 (s.I.toNat + (s.reg x).toNat) } : State).advance := by
  rcases execAddI_cases x s with ⟨h1, e⟩ | ⟨h1, e⟩ <;> rw [show exec (.addI x) s = _ from e] at h
  · injection h with h; exact ⟨h1, h.symm⟩
  · cases h

theorem exec_ldB_next {x : Reg} {s t : State} (h : exec (.ldB x) s = .next t) :
    s.I.toNat + 3 ≤ 0x1000 ∧
      t = ({ s with mem := s.mem.store s.I.toNat (decimalDigits (s.reg x)) } : State).advance := by
  rcases execLdB_cases x s with ⟨h1, e⟩ | ⟨h1, e⟩ <;> rw [show exec (.ldB x) s = _ from e] at h
  · injection h with h; exact ⟨h1, h.symm⟩
  · cases h

theorem exec_stRegs_next {x : Reg} {s t : State} (h : exec (.stRegs x) s = .next t) :
    s.I.toNat + x.val + 1 ≤ 0x1000 ∧
      t = ({ s with mem := s.mem.store s.I.toNat ((regsUpTo x).map s.reg) } : State).advance := by
  rcases execStRegs_cases x s with ⟨h1, e⟩ | ⟨h1, e⟩ <;> rw [show exec (.stRegs x) s = _ from e] at h
  · injection h with h; exact ⟨h1, h.symm⟩
  · cases h

theorem exec_ldRegs_next {x : Reg} {s t : State} (h : exec (.ldRegs x) s = .next t) :
    s.I.toNat + x.val + 1 ≤ 0x1000 ∧ t = ({ s with v := (loadRegs s (regsUpTo x)).v } : State).advance := by
  rcases execLdRegs_cases x s with ⟨h1, e⟩ | ⟨h1, e⟩ <;> rw [show exec (.ldRegs x) s = _ from e] at h
  · injection h with h; exact ⟨h1, by rw [← h, ← loadRegs_fields]⟩
  · cases h

/-! ### Items most meanings leave alone -/

/-- Only a call and a return touch the call stack. -/
theorem exec_stack {i : Instr} {s t : State} (h : exec i s = .next t) :
    (∃ nnn, i = .call nnn) ∨ i = .ret ∨ (t.stack = s.stack ∧ t.sp = s.sp) := by
  cases i with
  | call nnn => exact .inl ⟨_, rfl⟩
  | ret => exact .inr (.inl rfl)
  | drw x y n => obtain ⟨-, rfl⟩ := exec_drw_next h; exact .inr (.inr ⟨rfl, rfl⟩)
  | addI x => obtain ⟨-, rfl⟩ := exec_addI_next h; exact .inr (.inr ⟨rfl, rfl⟩)
  | ldB x => obtain ⟨-, rfl⟩ := exec_ldB_next h; exact .inr (.inr ⟨rfl, rfl⟩)
  | stRegs x => obtain ⟨-, rfl⟩ := exec_stRegs_next h; exact .inr (.inr ⟨rfl, rfl⟩)
  | ldRegs x => obtain ⟨-, rfl⟩ := exec_ldRegs_next h; exact .inr (.inr ⟨rfl, rfl⟩)
  | _ => injection h with h; subst h; exact .inr (.inr ⟨rfl, rfl⟩)

/-- Only `Fx33` and `Fx55` touch memory. -/
theorem exec_mem {i : Instr} {s t : State} (h : exec i s = .next t) :
    (∃ x, i = .ldB x ∨ i = .stRegs x) ∨ t.mem = s.mem := by
  cases i with
  | call nnn => obtain ⟨-, rfl⟩ := exec_call_next h; exact .inr rfl
  | ret => obtain ⟨-, rfl⟩ := exec_ret_next h; exact .inr rfl
  | drw x y n => obtain ⟨-, rfl⟩ := exec_drw_next h; exact .inr rfl
  | addI x => obtain ⟨-, rfl⟩ := exec_addI_next h; exact .inr rfl
  | ldB x => exact .inl ⟨x, .inl rfl⟩
  | stRegs x => exact .inl ⟨x, .inr rfl⟩
  | ldRegs x => obtain ⟨-, rfl⟩ := exec_ldRegs_next h; exact .inr rfl
  | _ => injection h with h; subst h; exact .inr rfl

/-- Only `Fx0A` touches the key-wait. -/
theorem exec_wait {i : Instr} {s t : State} (h : exec i s = .next t) :
    (∃ x, i = .ldVxK x ∧ t = { s with waitKey := true, waitX := x }) ∨
      ((∀ x, i ≠ .ldVxK x) ∧ t.waitKey = s.waitKey ∧ t.waitX = s.waitX) := by
  cases i with
  | call nnn => obtain ⟨-, rfl⟩ := exec_call_next h; exact .inr ⟨by simp, rfl, rfl⟩
  | ret => obtain ⟨-, rfl⟩ := exec_ret_next h; exact .inr ⟨by simp, rfl, rfl⟩
  | drw x y n => obtain ⟨-, rfl⟩ := exec_drw_next h; exact .inr ⟨by simp, rfl, rfl⟩
  | addI x => obtain ⟨-, rfl⟩ := exec_addI_next h; exact .inr ⟨by simp, rfl, rfl⟩
  | ldB x => obtain ⟨-, rfl⟩ := exec_ldB_next h; exact .inr ⟨by simp, rfl, rfl⟩
  | stRegs x => obtain ⟨-, rfl⟩ := exec_stRegs_next h; exact .inr ⟨by simp, rfl, rfl⟩
  | ldRegs x => obtain ⟨-, rfl⟩ := exec_ldRegs_next h; exact .inr ⟨by simp, rfl, rfl⟩
  | ldVxK x => injection h with h; subst h; exact .inl ⟨x, rfl, rfl⟩
  | _ => injection h with h; subst h; exact .inr ⟨by simp, rfl, rfl⟩

/-- Only `Fx15` and `Fx18` touch the timers. -/
theorem exec_timers {i : Instr} {s t : State} (h : exec i s = .next t) :
    (∃ x, i = .ldDtVx x ∧ t = ({ s with dt := s.reg x } : State).advance) ∨
      (∃ x, i = .ldStVx x ∧ t = ({ s with st := s.reg x } : State).advance) ∨ (t.dt = s.dt ∧ t.st = s.st) := by
  cases i with
  | call nnn => obtain ⟨-, rfl⟩ := exec_call_next h; exact .inr (.inr ⟨rfl, rfl⟩)
  | ret => obtain ⟨-, rfl⟩ := exec_ret_next h; exact .inr (.inr ⟨rfl, rfl⟩)
  | drw x y n => obtain ⟨-, rfl⟩ := exec_drw_next h; exact .inr (.inr ⟨rfl, rfl⟩)
  | addI x => obtain ⟨-, rfl⟩ := exec_addI_next h; exact .inr (.inr ⟨rfl, rfl⟩)
  | ldB x => obtain ⟨-, rfl⟩ := exec_ldB_next h; exact .inr (.inr ⟨rfl, rfl⟩)
  | stRegs x => obtain ⟨-, rfl⟩ := exec_stRegs_next h; exact .inr (.inr ⟨rfl, rfl⟩)
  | ldRegs x => obtain ⟨-, rfl⟩ := exec_ldRegs_next h; exact .inr (.inr ⟨rfl, rfl⟩)
  | ldDtVx x => injection h with h; subst h; exact .inl ⟨x, rfl, rfl⟩
  | ldStVx x => injection h with h; subst h; exact .inr (.inl ⟨x, rfl, rfl⟩)
  | _ => injection h with h; subst h; exact .inr (.inr ⟨rfl, rfl⟩)

/-! ### Small facts -/

/-- The registers `Fx55` stores, by place. -/
theorem regsUpTo_getD (x k : Reg) (f : Reg → Byte) (b : Byte) :
    ((regsUpTo x).map f).getD k.val b = if k ≤ x then f k else b := by
  have h : (regsUpTo x)[k.val]? = if k ≤ x then some k else none := by
    revert k x; decide
  rw [List.getD_eq_getElem?_getD, List.getElem?_map, h]
  split <;> rfl

/-- A run whose first step commits, on any machine. -/
theorem run_succ (M : Host.Core) {s t : M.State} (h : M.step s = .next t) (n : Nat) :
    M.run (n + 1) s = M.run n t := by
  simp [Host.Core.run, h]

theorem core_run_succ {s t : State} (h : step s = .next t) (n : Nat) :
    Sys2Proof.core.run (n + 1) s = Sys2Proof.core.run n t := run_succ Sys2Proof.core h n

end Sys2Proof.Machine
end

