-- ==== Sys2Proof/Laws/PerInstr.lean ====
section
/-! SUPPORT. Statements about every instruction, one lemma a constructor. `EncodesInItsRow`: the word of an instruction
selects the row of its own mnemonic in the opcode table (30_encoding.md R74). -/

namespace Sys2Proof.Laws.EncodesInItsRow

/-- The word of `i` selects a row of the opcode table that bears the mnemonic of `i`. -/
def Statement (i : Instr) : Prop := ∃ r ∈ opcodeRows, r.mnemonic = i.mnemonic ∧ r.selects (encode i) = true

/-- A row of the table witnesses the statement. -/
theorem of_row {i : Instr} (r : OpcodeRow) (h : r ∈ opcodeRows) (hm : r.mnemonic = i.mnemonic)
    (hw : encode i &&& r.mask = r.bits) : Statement i :=
  ⟨r, h, hm, by simpa [OpcodeRow.selects] using hw⟩

theorem cls : Statement .cls :=
  of_row ⟨.cls, 0xFFFF, 0x00E0⟩ (by decide) rfl (by decide)

theorem ret : Statement .ret :=
  of_row ⟨.ret, 0xFFFF, 0x00EE⟩ (by decide) rfl (by decide)

theorem jp (nnn : Addr) : Statement (.jp nnn) :=
  of_row ⟨.jp, 0xF000, 0x1000⟩ (by decide) rfl (by simp only [encode, and_F000, opField_encodeAddr]; decide)

theorem call (nnn : Addr) : Statement (.call nnn) :=
  of_row ⟨.call, 0xF000, 0x2000⟩ (by decide) rfl (by simp only [encode, and_F000, opField_encodeAddr]; decide)

theorem seImm (x : Reg) (nn : Byte) : Statement (.seImm x nn) :=
  of_row ⟨.seImm, 0xF000, 0x3000⟩ (by decide) rfl (by simp only [encode, and_F000, opField_encodeRegImm]; decide)

theorem sneImm (x : Reg) (nn : Byte) : Statement (.sneImm x nn) :=
  of_row ⟨.sneImm, 0xF000, 0x4000⟩ (by decide) rfl (by simp only [encode, and_F000, opField_encodeRegImm]; decide)

theorem seReg (x : Reg) (y : Reg) : Statement (.seReg x y) :=
  of_row ⟨.seReg, 0xF00F, 0x5000⟩ (by decide) rfl (by simp only [encode, and_F00F, opField_encodeRegReg, nField_encodeRegReg]; decide)

theorem ldImm (x : Reg) (nn : Byte) : Statement (.ldImm x nn) :=
  of_row ⟨.ldImm, 0xF000, 0x6000⟩ (by decide) rfl (by simp only [encode, and_F000, opField_encodeRegImm]; decide)

theorem addImm (x : Reg) (nn : Byte) : Statement (.addImm x nn) :=
  of_row ⟨.addImm, 0xF000, 0x7000⟩ (by decide) rfl (by simp only [encode, and_F000, opField_encodeRegImm]; decide)

theorem ldReg (x : Reg) (y : Reg) : Statement (.ldReg x y) :=
  of_row ⟨.ldReg, 0xF00F, 0x8000⟩ (by decide) rfl (by simp only [encode, and_F00F, opField_encodeRegReg, nField_encodeRegReg]; decide)

theorem or (x : Reg) (y : Reg) : Statement (.or x y) :=
  of_row ⟨.or, 0xF00F, 0x8001⟩ (by decide) rfl (by simp only [encode, and_F00F, opField_encodeRegReg, nField_encodeRegReg]; decide)

theorem and (x : Reg) (y : Reg) : Statement (.and x y) :=
  of_row ⟨.and, 0xF00F, 0x8002⟩ (by decide) rfl (by simp only [encode, and_F00F, opField_encodeRegReg, nField_encodeRegReg]; decide)

theorem xor (x : Reg) (y : Reg) : Statement (.xor x y) :=
  of_row ⟨.xor, 0xF00F, 0x8003⟩ (by decide) rfl (by simp only [encode, and_F00F, opField_encodeRegReg, nField_encodeRegReg]; decide)

theorem addReg (x : Reg) (y : Reg) : Statement (.addReg x y) :=
  of_row ⟨.addReg, 0xF00F, 0x8004⟩ (by decide) rfl (by simp only [encode, and_F00F, opField_encodeRegReg, nField_encodeRegReg]; decide)

theorem sub (x : Reg) (y : Reg) : Statement (.sub x y) :=
  of_row ⟨.sub, 0xF00F, 0x8005⟩ (by decide) rfl (by simp only [encode, and_F00F, opField_encodeRegReg, nField_encodeRegReg]; decide)

theorem shr (x : Reg) (y : Reg) : Statement (.shr x y) :=
  of_row ⟨.shr, 0xF00F, 0x8006⟩ (by decide) rfl (by simp only [encode, and_F00F, opField_encodeRegReg, nField_encodeRegReg]; decide)

theorem subn (x : Reg) (y : Reg) : Statement (.subn x y) :=
  of_row ⟨.subn, 0xF00F, 0x8007⟩ (by decide) rfl (by simp only [encode, and_F00F, opField_encodeRegReg, nField_encodeRegReg]; decide)

theorem shl (x : Reg) (y : Reg) : Statement (.shl x y) :=
  of_row ⟨.shl, 0xF00F, 0x800E⟩ (by decide) rfl (by simp only [encode, and_F00F, opField_encodeRegReg, nField_encodeRegReg]; decide)

theorem sneReg (x : Reg) (y : Reg) : Statement (.sneReg x y) :=
  of_row ⟨.sneReg, 0xF00F, 0x9000⟩ (by decide) rfl (by simp only [encode, and_F00F, opField_encodeRegReg, nField_encodeRegReg]; decide)

theorem ldI (nnn : Addr) : Statement (.ldI nnn) :=
  of_row ⟨.ldI, 0xF000, 0xA000⟩ (by decide) rfl (by simp only [encode, and_F000, opField_encodeAddr]; decide)

theorem jpV0 (nnn : Addr) : Statement (.jpV0 nnn) :=
  of_row ⟨.jpV0, 0xF000, 0xB000⟩ (by decide) rfl (by simp only [encode, and_F000, opField_encodeAddr]; decide)

theorem rnd (x : Reg) (nn : Byte) : Statement (.rnd x nn) :=
  of_row ⟨.rnd, 0xF000, 0xC000⟩ (by decide) rfl (by simp only [encode, and_F000, opField_encodeRegImm]; decide)

theorem drw (x : Reg) (y : Reg) (n : Nibble) : Statement (.drw x y n) :=
  of_row ⟨.drw, 0xF000, 0xD000⟩ (by decide) rfl (by simp only [encode, and_F000, opField_encodeRegReg]; decide)

theorem skp (x : Reg) : Statement (.skp x) :=
  of_row ⟨.skp, 0xF0FF, 0xE09E⟩ (by decide) rfl (by simp only [encode, and_F0FF, opField_encodeRegImm, nnField_encodeRegImm]; decide)

theorem sknp (x : Reg) : Statement (.sknp x) :=
  of_row ⟨.sknp, 0xF0FF, 0xE0A1⟩ (by decide) rfl (by simp only [encode, and_F0FF, opField_encodeRegImm, nnField_encodeRegImm]; decide)

theorem ldVxDt (x : Reg) : Statement (.ldVxDt x) :=
  of_row ⟨.ldVxDt, 0xF0FF, 0xF007⟩ (by decide) rfl (by simp only [encode, and_F0FF, opField_encodeRegImm, nnField_encodeRegImm]; decide)

theorem ldVxK (x : Reg) : Statement (.ldVxK x) :=
  of_row ⟨.ldVxK, 0xF0FF, 0xF00A⟩ (by decide) rfl (by simp only [encode, and_F0FF, opField_encodeRegImm, nnField_encodeRegImm]; decide)

theorem ldDtVx (x : Reg) : Statement (.ldDtVx x) :=
  of_row ⟨.ldDtVx, 0xF0FF, 0xF015⟩ (by decide) rfl (by simp only [encode, and_F0FF, opField_encodeRegImm, nnField_encodeRegImm]; decide)

theorem ldStVx (x : Reg) : Statement (.ldStVx x) :=
  of_row ⟨.ldStVx, 0xF0FF, 0xF018⟩ (by decide) rfl (by simp only [encode, and_F0FF, opField_encodeRegImm, nnField_encodeRegImm]; decide)

theorem addI (x : Reg) : Statement (.addI x) :=
  of_row ⟨.addI, 0xF0FF, 0xF01E⟩ (by decide) rfl (by simp only [encode, and_F0FF, opField_encodeRegImm, nnField_encodeRegImm]; decide)

theorem ldF (x : Reg) : Statement (.ldF x) :=
  of_row ⟨.ldF, 0xF0FF, 0xF029⟩ (by decide) rfl (by simp only [encode, and_F0FF, opField_encodeRegImm, nnField_encodeRegImm]; decide)

theorem ldB (x : Reg) : Statement (.ldB x) :=
  of_row ⟨.ldB, 0xF0FF, 0xF033⟩ (by decide) rfl (by simp only [encode, and_F0FF, opField_encodeRegImm, nnField_encodeRegImm]; decide)

theorem stRegs (x : Reg) : Statement (.stRegs x) :=
  of_row ⟨.stRegs, 0xF0FF, 0xF055⟩ (by decide) rfl (by simp only [encode, and_F0FF, opField_encodeRegImm, nnField_encodeRegImm]; decide)

theorem ldRegs (x : Reg) : Statement (.ldRegs x) :=
  of_row ⟨.ldRegs, 0xF0FF, 0xF065⟩ (by decide) rfl (by simp only [encode, and_F0FF, opField_encodeRegImm, nnField_encodeRegImm]; decide)

end Sys2Proof.Laws.EncodesInItsRow
end

