-- ==== Sys2Proof/Tests/Slice0.lean ====
section
/-! SUPPORT. Tests. Expected values come from 95_test_vectors.md (the row's id stands in the comment), from the examples
of the rules, or are written out by hand from 30_encoding.md R74. The witnesses at the end show that the hypotheses of
the statements can be met. -/

namespace Sys2Proof.Tests

open Sys2Proof.Machine

/-! ### Helpers -/

/-- Reset, some registers set, and a word to run next at `pc` (0x200 unless moved before). -/
def start (regs : List (Reg × Byte)) (w : Nat) : State :=
  (regs.foldl (fun s r => s.setReg r.1 r.2) State.reset).withFetchWord 16 w

/-- Reset with a word to run at another address. -/
def startAt (pc : Word) (regs : List (Reg × Byte)) (w : Nat) : State :=
  ({ regs.foldl (fun s r => s.setReg r.1 r.2) State.reset with pc := pc } : State).withFetchWord 16 w

/-- The same with bytes of memory. -/
def withBytes (s : State) (a : Nat) (bs : List Byte) : State := { s with mem := s.mem.store a bs }

/-- The same with one lit cell. -/
def withLit (s : State) (row : Fin 32) (col : Fin 64) : State := { s with fb := s.fb.flip row col }

/-- The same with the inputs of the next step given. -/
def withInput (s : State) (key : Key) (rnd : Byte) : State := { s with port := ⟨[⟨key, rnd⟩], 0⟩ }

/-- One step commits and the state after it passes `p`. -/
def commits (s : State) (p : State → Bool) : Bool :=
  match step s with
  | .next t => p t
  | .fault _ => false
  | .refused _ => false

/-- One step raises `f`. -/
def raises (s : State) (f : Fault) : Bool := decide (errOf (step s) = some f)

/-- The instruction alone completes and the state after it passes `p`. -/
def completes (i : Instr) (s : State) (p : State → Bool) : Bool :=
  match exec i s with
  | .next t => p t
  | .fault _ => false
  | .refused _ => false

/-! ### Well-formed written instructions: each check refuses an ill-formed term -/

theorem test_wf_accepts : (Written.mk .drw [15, 0, 15]).instr = some (.drw 15 0 15) := by decide
theorem test_wf_too_few_operands : (Written.mk .ldImm [3]).wellFormed = false := by decide
theorem test_wf_too_many_operands : (Written.mk .cls [0]).instr = none := by decide
theorem test_wf_register_out_of_range : (Written.mk .skp [16]).wellFormed = false := by decide
theorem test_wf_immediate_out_of_range : (Written.mk .addImm [0, 256]).wellFormed = false := by decide
theorem test_wf_address_out_of_range : (Written.mk .jp [4096]).wellFormed = false := by decide
theorem test_wf_count_out_of_range : (Written.mk .drw [0, 0, 16]).instr = none := by decide

/-! ### Decoding: a word for each constructor, bit by bit from R74 and opcode_table.json -/

theorem test_decode_fixed :
    decodeWord 0b0000000011100000 = some .cls ∧ decodeWord 0b0000000011101110 = some .ret := by decide

theorem test_decode_addr :
    decodeWord 0b0001101010111100 = some (.jp 0xABC) ∧ decodeWord 0b0010000100100011 = some (.call 0x123) ∧
    decodeWord 0b1010111111111110 = some (.ldI 0xFFE) ∧ decodeWord 0b1011100000000001 = some (.jpV0 0x801) := by decide

theorem test_decode_reg_imm :
    decodeWord 0b0011000110000000 = some (.seImm 1 0x80) ∧ decodeWord 0b0100001000000111 = some (.sneImm 2 0x07) ∧
    decodeWord 0b0110001100101010 = some (.ldImm 3 0x2A) ∧ decodeWord 0b0111111100000001 = some (.addImm 15 0x01) ∧
    decodeWord 0b1100010000001111 = some (.rnd 4 0x0F) := by decide

theorem test_decode_reg_reg :
    decodeWord 0b0101001101000000 = some (.seReg 3 4) ∧ decodeWord 0b1001001101000000 = some (.sneReg 3 4) ∧
    decodeWord 0b1101000000010101 = some (.drw 0 1 5) := by decide

theorem test_decode_alu :
    decodeWord 0b1000000100100000 = some (.ldReg 1 2) ∧ decodeWord 0b1000000100100001 = some (.or 1 2) ∧
    decodeWord 0b1000000100100010 = some (.and 1 2) ∧ decodeWord 0b1000000100100011 = some (.xor 1 2) ∧
    decodeWord 0b1000000100100100 = some (.addReg 1 2) ∧ decodeWord 0b1000000100100101 = some (.sub 1 2) ∧
    decodeWord 0b1000000100100110 = some (.shr 1 2) ∧ decodeWord 0b1000000100100111 = some (.subn 1 2) ∧
    decodeWord 0b1000000100101110 = some (.shl 1 2) := by decide

theorem test_decode_key :
    decodeWord 0b1110001010011110 = some (.skp 2) ∧ decodeWord 0b1110001010100001 = some (.sknp 2) := by decide

theorem test_decode_system :
    decodeWord 0b1111000100000111 = some (.ldVxDt 1) ∧ decodeWord 0b1111000100001010 = some (.ldVxK 1) ∧
    decodeWord 0b1111000100010101 = some (.ldDtVx 1) ∧ decodeWord 0b1111000100011000 = some (.ldStVx 1) ∧
    decodeWord 0b1111000100011110 = some (.addI 1) ∧ decodeWord 0b1111000100101001 = some (.ldF 1) ∧
    decodeWord 0b1111000100110011 = some (.ldB 1) ∧ decodeWord 0b1111000101010101 = some (.stRegs 1) ∧
    decodeWord 0b1111000101100101 = some (.ldRegs 1) := by decide

/-- Bytes in memory order; a lone byte is no instruction. -/
theorem test_decode_bytes :
    decodeBytes [0x63, 0x2A, 0xFF] = .ok (.ldImm 3 0x2A, [0xFF]) ∧ decodeBytes [0x53, 0x41] = .error (.illegal 0x5341) ∧
    decodeBytes [0x63] = .error .truncated := by decide

/-! ### The step (vectors S1 to S18) -/

/-- S1 -/
theorem test_fetch_at_top : raises ({ State.reset with pc := 0xFFF } : State) (.addressOutOfRange 0xFFF) = true := by decide
/-- S2 -/
theorem test_fetch_last_word :
    commits (startAt 0xFFE [] 0x6001) (fun t => t.reg 0 == 1 && t.pc == 0x1000 &&
      raises t (.addressOutOfRange 0x1000)) = true := by decide
/-- S3, S4 -/
theorem test_fetch_odd_and_low_pc :
    commits (startAt 0x201 [] 0x6001) (fun t => t.reg 0 == 1 && t.pc == 0x203) = true ∧
    commits (startAt 0x100 [] 0x6001) (fun t => t.reg 0 == 1 && t.pc == 0x102) = true := by decide
/-- S5 to S15 -/
theorem test_illegal_words :
    raises State.reset (.illegalInstruction 0) = true ∧
    ∀ w ∈ [0x0123, 0x00E1, 0x00EF, 0x5341, 0x934F, 0x8128, 0x812F, 0xE29F, 0xF2FF, 0xF000],
      raises (start [] w) (.illegalInstruction (.ofNat 16 w)) = true := by decide
/-- S11: the tick is undone. -/
theorem test_illegal_undoes_tick :
    (hostStep ({ start [] 0x8128 with dt := 5 } : State)).1.dt = 5 := by decide
/-- S16 -/
theorem test_tick :
    commits ({ start [] 0x1200 with dt := 3 } : State) (fun t => t.dt == 2 && t.st == 0 && t.pc == 0x200) = true := by
  decide
/-- S17 -/
theorem test_blocked_no_key :
    commits (withInput { start [] 0xF40A with waitKey := true, waitX := 4, dt := 7 } 0 0)
      (fun t => t.waitKey && t.pc == 0x200 && t.dt == 7 && t.reg 4 == 0) = true := by decide
/-- S18 -/
theorem test_blocked_key :
    commits (withInput { start [] 0xF40A with waitKey := true, waitX := 4, dt := 7 } 16 0)
      (fun t => !t.waitKey && t.pc == 0x202 && t.dt == 7 && t.reg 4 == 0x10) = true := by decide

/-! ### Control transfer (vectors F1 to F20) -/

/-- F1 -/
theorem test_ret :
    commits ({ startAt 0x212 [] 0x00EE with sp := 1, stack := (Vector.replicate 16 0).set 0 0x206 } : State)
      (fun t => t.pc == 0x206 && t.sp == 0 && t.stack[0] == 0x206) = true := by decide
/-- F2 -/
theorem test_ret_underflow : raises (start [] 0x00EE) (.stackUnderflow 0x200) = true := by decide
/-- F3 -/
theorem test_jp : commits (startAt 0x20A [] 0x1204) (fun t => t.pc == 0x204) = true := by decide
/-- F6 -/
theorem test_call_last_entry :
    commits ({ start [] 0x2300 with sp := 15 } : State)
      (fun t => t.pc == 0x300 && t.sp == 16 && t.stack[15] == 0x202 && t.stack[14] == 0) = true := by decide
/-- F7 -/
theorem test_call_overflow :
    raises ({ start [] 0x2300 with sp := 16 } : State) (.stackOverflow 0x200) = true := by decide
/-- F9, F10 -/
theorem test_se_imm :
    commits (startAt 0x208 [] 0x3100) (fun t => t.pc == 0x20C) = true ∧
    commits (startAt 0x208 [(1, 4)] 0x3100) (fun t => t.pc == 0x20A) = true := by decide
/-- F12, F13 -/
theorem test_sne_imm :
    commits (startAt 0x300 [(2, 7)] 0x4207) (fun t => t.pc == 0x302) = true ∧
    commits (startAt 0x300 [(2, 7)] 0x4208) (fun t => t.pc == 0x304) = true := by decide
/-- F14, F15 -/
theorem test_se_reg :
    commits (start [(3, 9), (4, 9)] 0x5340) (fun t => t.pc == 0x204) = true ∧
    commits (start [(3, 9), (4, 8)] 0x5340) (fun t => t.pc == 0x202) = true := by decide
/-- F17, F18 -/
theorem test_sne_reg :
    commits (start [(3, 9), (4, 8)] 0x9340) (fun t => t.pc == 0x204) = true ∧
    commits (start [(3, 9), (4, 9)] 0x9340) (fun t => t.pc == 0x202) = true := by decide
/-- F20 -/
theorem test_jp_v0 :
    commits (start [(0, 0xFF)] 0xBFFF) (fun t => t.pc == 0x10FE && raises t (.addressOutOfRange 0x10FE)) = true := by
  decide

/-! ### Immediate and random (vectors M1 to M9) -/

/-- M2 -/
theorem test_ld_imm : commits (start [] 0x6FAB) (fun t => t.reg 15 == 0xAB && t.pc == 0x202) = true := by decide
/-- M4 -/
theorem test_add_imm_wraps :
    commits (start [(1, 0xF0), (15, 7)] 0x7120) (fun t => t.reg 1 == 0x10 && t.reg 15 == 7) = true := by decide
/-- M7 -/
theorem test_rnd : commits (withInput (start [] 0xC30F) 0 0xA7) (fun t => t.reg 3 == 0x07) = true := by decide

/-! ### The ALU family (vectors A1 to A38) -/

/-- A1 -/
theorem test_ld_reg :
    commits (start [(2, 0x3C), (15, 0xEE)] 0x8120) (fun t => t.reg 1 == 0x3C && t.reg 15 == 0xEE) = true := by decide
/-- A2 -/
theorem test_or :
    commits (start [(1, 0x0F), (2, 0xF0), (15, 0xEE)] 0x8121) (fun t => t.reg 1 == 0xFF && t.reg 15 == 0xEE) = true := by
  decide
/-- A3 -/
theorem test_and :
    commits (start [(1, 0x3C), (2, 0x0F), (15, 0xEE)] 0x8122) (fun t => t.reg 1 == 0x0C && t.reg 15 == 0xEE) = true := by
  decide
/-- A4 -/
theorem test_xor :
    commits (start [(1, 0xFF), (2, 0x0F), (15, 0xEE)] 0x8123) (fun t => t.reg 1 == 0xF0 && t.reg 15 == 0xEE) = true := by
  decide
/-- A6, A9 -/
theorem test_add_reg :
    commits (start [(0, 0xC8), (1, 0x64)] 0x8014) (fun t => t.reg 0 == 0x2C && t.reg 15 == 1) = true ∧
    commits (start [(0, 0x80), (1, 0x7F)] 0x8014) (fun t => t.reg 0 == 0xFF && t.reg 15 == 0) = true := by decide
/-- A29, A30: register 15 as an operand. -/
theorem test_add_reg_flag_operand :
    commits (start [(1, 10), (15, 250)] 0x81F4) (fun t => t.reg 1 == 0x04 && t.reg 15 == 1) = true ∧
    commits (start [(15, 200), (1, 100)] 0x8F14) (fun t => t.reg 15 == 1) = true := by decide
/-- A10, A12 -/
theorem test_sub :
    commits (start [(1, 0x10), (2, 0x20)] 0x8125) (fun t => t.reg 1 == 0xF0 && t.reg 15 == 0) = true ∧
    commits (start [(1, 7), (2, 7)] 0x8125) (fun t => t.reg 1 == 0 && t.reg 15 == 1) = true := by decide
/-- A14, A34 -/
theorem test_subn :
    commits (start [(1, 0x10), (2, 0x20)] 0x8127) (fun t => t.reg 1 == 0x10 && t.reg 15 == 1) = true ∧
    commits (start [(15, 5), (1, 9)] 0x8F17) (fun t => t.reg 15 == 1) = true := by decide
/-- A21, A35 -/
theorem test_shr :
    commits (start [(3, 0x04), (7, 0xFF)] 0x8376) (fun t => t.reg 3 == 2 && t.reg 7 == 0xFF && t.reg 15 == 0) = true ∧
    commits (start [(15, 3)] 0x8F06) (fun t => t.reg 15 == 0) = true := by decide
/-- A22, A37 -/
theorem test_shl :
    commits (start [(3, 0x81)] 0x830E) (fun t => t.reg 3 == 0x02 && t.reg 15 == 1) = true ∧
    commits (start [(15, 0x80)] 0x8F0E) (fun t => t.reg 15 == 2) = true := by decide

/-! ### The index register and memory (vectors I1 to I20) -/

/-- I2 -/
theorem test_ld_i : commits (start [] 0xAFFF) (fun t => t.I == 0x0FFF && t.pc == 0x202) = true := by decide
/-- I4 -/
theorem test_add_i_passes_memory :
    commits ({ start [(2, 1), (15, 9)] 0xF21E with I := 0xFFF } : State) (fun t => t.I == 0x1000 && t.reg 15 == 9) = true := by
  decide
/-- I6 -/
theorem test_add_i_raises :
    raises ({ start [(2, 1)] 0xF21E with I := 0xFFFF } : State) (.addressOutOfRange 0x10000) = true := by decide
/-- I7, I9 -/
theorem test_ld_f :
    commits (start [(4, 0x0A)] 0xF429) (fun t => t.I == 0x0032) = true ∧
    commits (start [(4, 0xFF)] 0xF429) (fun t => t.I == 0x04FB) = true := by decide
/-- I10 -/
theorem test_ld_b :
    commits ({ start [(0, 254)] 0xF033 with I := 0x300 } : State)
      (fun t => t.mem.read 0x300 == 2 && t.mem.read 0x301 == 5 && t.mem.read 0x302 == 4 && t.I == 0x300) = true := by decide
/-- I13 -/
theorem test_ld_b_raises :
    raises ({ start [(0, 100)] 0xF033 with I := 0xFFE } : State) (.addressOutOfRange 0x1000) = true := by decide
/-- I14 -/
theorem test_st_regs :
    commits ({ start [(0, 0x11), (1, 0x22), (2, 0x33), (3, 0x44)] 0xF255 with I := 0x400 } : State)
      (fun t => t.mem.read 0x400 == 0x11 && t.mem.read 0x402 == 0x33 && t.mem.read 0x403 == 0 && t.I == 0x400) = true := by
  decide
/-- I16 -/
theorem test_st_regs_raises :
    raises ({ start [(0, 1)] 0xFF55 with I := 0xFF1 } : State) (.addressOutOfRange 0x1000) = true := by decide
/-- I17 -/
theorem test_ld_regs :
    commits (withBytes { start [(3, 0x77)] 0xF265 with I := 0x300 } 0x300 [2, 5, 4, 9])
      (fun t => t.reg 0 == 2 && t.reg 1 == 5 && t.reg 2 == 4 && t.reg 3 == 0x77 && t.I == 0x300) = true := by decide
/-- I20 -/
theorem test_ld_regs_raises :
    raises ({ start [] 0xF065 with I := 0x1000 } : State) (.addressOutOfRange 0x1000) = true := by decide

/-! ### The display (vectors G1 to G9) -/

/-- G1 -/
theorem test_cls :
    commits (withLit (withLit (start [(15, 1)] 0x00E0) 0 0) 31 63)
      (fun t => !t.pixel 0 0 && !t.pixel 31 63 && t.reg 15 == 1 && t.pc == 0x202) = true := by decide
/-- G2: wrap on both axes. -/
theorem test_drw_wraps :
    commits (withBytes { start [(0, 62), (1, 31)] 0xD012 with I := 0x20C } 0x20C [0xC0, 0x81])
      (fun t => t.pixel 31 62 && t.pixel 31 63 && t.pixel 0 62 && t.pixel 0 5 && !t.pixel 0 63 && !t.pixel 31 0 &&
        t.reg 15 == 0) = true := by decide
/-- G3: collision. -/
theorem test_drw_collides :
    commits (withLit (withBytes { start [] 0xD011 with I := 0x300 } 0x300 [0xFF]) 0 7)
      (fun t => t.pixel 0 0 && t.pixel 0 6 && !t.pixel 0 7 && t.reg 15 == 1) = true := by decide

/-! ### Key and timers (vectors K1 to K13) -/

/-- K4, K5 -/
theorem test_skp :
    commits (withInput (start [(2, 16)] 0xE29E) 16 0) (fun t => t.pc == 0x204) = true ∧
    commits (withInput (start [(2, 0)] 0xE29E) 0 0) (fun t => t.pc == 0x204) = true := by decide
/-- K6, K7 -/
theorem test_sknp :
    commits (withInput (start [(2, 5)] 0xE2A1) 0 0) (fun t => t.pc == 0x204) = true ∧
    commits (withInput (start [(2, 5)] 0xE2A1) 5 0) (fun t => t.pc == 0x202) = true := by decide
/-- K9 -/
theorem test_ld_vx_dt :
    commits ({ start [] 0xF207 with dt := 9 } : State) (fun t => t.dt == 8 && t.reg 2 == 8 && t.pc == 0x202) = true := by
  decide
/-- K11 -/
theorem test_ld_dt_vx :
    commits ({ start [(0, 10)] 0xF015 with dt := 3, st := 3 } : State) (fun t => t.dt == 10 && t.st == 2) = true := by
  decide
/-- K12 -/
theorem test_ld_st_vx :
    commits ({ start [(3, 2)] 0xF318 with dt := 1 } : State) (fun t => t.dt == 0 && t.st == 2 && t.soundActive) = true := by
  decide
/-- K13 -/
theorem test_ld_vx_k :
    commits (withInput { start [] 0xF10A with dt := 10, st := 1 } 7 0)
      (fun t => t.dt == 9 && t.st == 0 && t.waitKey && t.waitX == 1 && t.reg 1 == 0 && t.pc == 0x200) = true := by decide

/-! ### Load (vectors L1 to L5) -/

/-- L5: two words, high byte first, and zeros beside them. -/
theorem test_load :
    (match State.load [0x60, 0x05, 0x70, 0x03] ⟨[], 0⟩ with
      | .next t => t.mem.read 0x200 == 0x60 && t.mem.read 0x203 == 0x03 && t.mem.read 0x204 == 0 &&
          t.mem.read 0x1FF == 0 && t.mem.read 0x050 == 0
      | .fault _ => false
      | .refused _ => false) = true := by decide
/-- L1 -/
theorem test_load_too_large :
    errOf (State.load (List.replicate 0xE01 0) ⟨[], 0⟩) = some (.romTooLarge 0xE01) := by
  unfold State.load
  rw [if_pos (by rw [List.length_replicate]; decide), List.length_replicate]
  rfl

/-! ### Witnesses: the hypotheses of the statements can be met

Where a statement has several clauses, each has its own line, at a boundary of its range. A completion is shown by
`completes`, which also says that the hypothesis `exec i s = .next t` of such a statement is met. -/

/-- EncodeOfDecodeIsTheWord, DecoderAgreesWithOpcodeTable, OpcodeRowsAreDisjoint: legal and illegal words. -/
theorem test_witness_words :
    decodeWord 0x00E0 = some .cls ∧ decodeWord 0xFF65 = some (.ldRegs 15) ∧ decodeWord 0xFFFF = none ∧
    (OpcodeRow.mk .cls 0xFFFF 0x00E0).selects 0x00E0 = true ∧ (OpcodeRow.mk .ldRegs 0xF0FF 0xF065).selects 0xFF65 = true ∧
    ∀ r ∈ opcodeRows, r.selects 0xFFFF = false := by decide

/-- IllegalWordsAreThoseListed: each part at its edges, and the legal neighbours. -/
theorem test_witness_illegal_words :
    (∀ w ∈ [0x0000, 0x0FFF, 0x5FF1, 0x900F, 0x8008, 0x8FFD, 0x8FFF, 0xE000, 0xEFFF, 0xF000, 0xF066],
      decodeWord (.ofNat 16 w) = none) ∧
    ∀ w ∈ [0x00E0, 0x00EE, 0x1000, 0x5FF0, 0x9000, 0x8007, 0x8FFE, 0xE09E, 0xEFA1, 0xF007, 0xFF65],
      (decodeWord (.ofNat 16 w)).isSome = true := by decide

/-- WrittenFormsRoundTrip: a written form that is accepted. -/
theorem test_witness_written : (Written.mk .ldImm [15, 255]).instr = some (.ldImm 15 0xFF) := by decide

/-- StepRunsTheDecodedInstruction: at the last address that can be fetched, an instruction that commits and one that
raises. -/
theorem test_witness_step :
    (startAt 0xFFE [] 0x00E0).pc.toNat + 1 ≤ 0xFFF ∧ (startAt 0xFFE [] 0x00E0).waitKey = false ∧
    decodeWord ((startAt 0xFFE [] 0x00E0).wordAt 0xFFE) = some .cls ∧
    completes .cls (startAt 0xFFE [] 0x00E0).tickTimers (fun _ => true) = true ∧
    decodeWord ((startAt 0xFFE [] 0x00EE).wordAt 0xFFE) = some .ret ∧
    errOf (exec .ret (startAt 0xFFE [] 0x00EE).tickTimers) = some (.stackUnderflow 0xFFE) := by decide

/-- FetchIsBigEndianAndGuarded: the first address that cannot be fetched. -/
theorem test_witness_fetch :
    ({ State.reset with pc := 0xFFF } : State).waitKey = false ∧ 0xFFF < ({ State.reset with pc := 0xFFF } : State).pc.toNat + 1 := by
  decide

/-- IllegalWordRaises, ConditionsLeaveNoTraceAndRecur: a step that raises. -/
theorem test_witness_raise :
    errOf (step (startAt 0xFFE [] 0x5341)) = some (.illegalInstruction 0x5341) ∧
    (startAt 0xFFE [] 0x5341).waitKey = false ∧ decodeWord 0x5341 = none := by decide

/-- InstructionConditionsAreExactly: each condition at the first value that raises it, and the last that does not. -/
theorem test_witness_conditions :
    errOf (exec (.call 0x300) { State.reset with sp := 16 }) = some (.stackOverflow 0x200) ∧
    completes (.call 0x300) { State.reset with sp := 15 } (fun _ => true) = true ∧
    errOf (exec .ret State.reset) = some (.stackUnderflow 0x200) ∧
    completes .ret { State.reset with sp := 1 } (fun _ => true) = true ∧
    errOf (exec (.drw 0 0 1) { State.reset with I := 0x1000 }) = some (.addressOutOfRange 0x1000) ∧
    completes (.drw 0 0 0) { State.reset with I := 0xFFFF } (fun _ => true) = true ∧
    completes (.drw 0 0 15) { State.reset with I := 0xFF1 } (fun _ => true) = true ∧
    errOf (exec (.ldB 0) { State.reset with I := 0xFFE }) = some (.addressOutOfRange 0x1000) ∧
    completes (.ldB 0) { State.reset with I := 0xFFD } (fun _ => true) = true ∧
    errOf (exec (.stRegs 15) { State.reset with I := 0xFF1 }) = some (.addressOutOfRange 0x1000) ∧
    completes (.stRegs 15) { State.reset with I := 0xFF0 } (fun _ => true) = true ∧
    errOf (exec (.ldRegs 0) { State.reset with I := 0x1000 }) = some (.addressOutOfRange 0x1000) ∧
    completes (.ldRegs 0) { State.reset with I := 0xFFF } (fun _ => true) = true ∧
    errOf (exec (.addI 0) ({ State.reset with I := 0xFFFF } : State).advance) = none ∧
    errOf (exec (.addI 0) (({ State.reset with I := 0xFFFF } : State).setReg 0 1)) = some (.addressOutOfRange 0x10000) := by
  decide

/-- LoadPlacesTheRom: the empty ROM, the longest that fits and the shortest that does not; `k` and `a` of its clauses. -/
theorem test_witness_load :
    ([] : List Byte).length ≤ 0xE00 ∧ (List.replicate 0xE00 (0 : Byte)).length ≤ 0xE00 ∧
    0xE00 < (List.replicate 0xE01 (0 : Byte)).length ∧ 0xDFF < (List.replicate 0xE00 (0 : Byte)).length ∧
    (79 < 80 ∧ 80 ≤ 80 ∧ 80 < 0x200) ∧ 0x200 + ([] : List Byte).length ≤ 0x200 := by
  refine ⟨by decide, ?_, ?_, ?_, by decide, by decide⟩ <;> rw [List.length_replicate] <;> decide

/-- ResetStateIsAsListed: the clauses on memory at their edges. -/
theorem test_witness_reset : (0 < 80 ∧ 79 < 80) ∧ 80 ≤ 80 ∧ State.reset.mem.read 80 = 0 := by decide

/-- TimersTickBeforeTheInstruction: a committed step of an instruction that writes neither timer, of each of the three
it names, at `dt` 0 and 255, and a step that raises. -/
theorem test_witness_timers :
    commits ({ start [] 0x00E0 with dt := 0, st := 255 } : State) (fun t => t.dt == 0 && t.st == 254) = true ∧
    commits ({ start [] 0xFF07 with dt := 255 } : State) (fun t => t.reg 15 == 254) = true ∧
    commits ({ start [(0, 255)] 0xF015 with dt := 0 } : State) (fun t => t.dt == 255) = true ∧
    commits ({ start [(0, 255)] 0xF018 with st := 0 } : State) (fun t => t.st == 255) = true ∧
    (start [] 0xF018).waitKey = false ∧ raises ({ start [] 0x00EE with dt := 1 } : State) (.stackUnderflow 0x200) = true := by
  decide

/-- A CORE that waits at its `Fx0A`, with the inputs of the coming steps. -/
def waiting (l : List StepInput) : State := { start [] 0xFF0A with waitKey := true, waitX := 15, port := ⟨l, 0⟩ }

/-- BlockedStepWithoutKeyChangesNothing, BlockedStepWithKeyEndsTheWait, KeyWaitFreezesUntilAKey (two steps without a key,
then one with), KeyWaitIsEnteredOnlyByFx0A. -/
theorem test_witness_waiting :
    (waiting [⟨0, 0⟩]).waitsAtKeyWait ∧ (waiting [⟨0, 0⟩]).waitKey = true ∧ (waiting [⟨0, 0⟩]).key = 0 ∧
    (waiting [⟨16, 0⟩]).waitsAtKeyWait ∧ (waiting [⟨16, 0⟩]).key ≠ 0 ∧
    (∀ k, k < 2 → (InputPort.advance^[k] (waiting [⟨0, 1⟩, ⟨0, 2⟩, ⟨1, 0⟩]).port).now.key = 0) ∧
    (InputPort.advance^[2] (waiting [⟨0, 1⟩, ⟨0, 2⟩, ⟨1, 0⟩]).port).now.key ≠ 0 ∧
    commits (waiting [⟨0, 0⟩]) (fun t => t.waitKey) = true ∧ commits (waiting [⟨1, 0⟩]) (fun t => !t.waitKey) = true ∧
    commits (start [] 0xFF0A) (fun t => t.waitKey && t.waitX == 15) = true := by decide

/-- NextPcOfEveryInstruction: at the last address that can be fetched, one instruction for each shape of the match. -/
theorem test_witness_next_pc :
    (startAt 0xFFE [] 0x00E0).pc.toNat + 1 ≤ 0xFFF ∧
    (∀ i ∈ [Instr.cls, .jp 0xFFF, .call 0xFFF, .jpV0 0xFFF, .seImm 0 0, .seImm 0 1, .sneImm 0 0, .sneImm 0 1, .seReg 0 1,
        .sneReg 0 1, .skp 0, .sknp 0, .ldVxK 0, .ldB 0],
      completes i (withInput (startAt 0xFFE [] 0x00E0) 0 0) (fun _ => true) = true) ∧
    completes .ret { startAt 0xFFE [] 0x00E0 with sp := 16 } (fun _ => true) = true := by decide

/-- StepKeepsTheInvariant: a state that meets it, with a full stack and a `pc` at its bound, and one that steps. -/
theorem test_witness_invariant :
    ({ State.reset with sp := 16, stack := Vector.replicate 16 0x1000, pc := 0x10FE } : State).Inv ∧
    (waiting [⟨1, 0⟩]).Inv ∧ commits (waiting [⟨1, 0⟩]) (fun _ => true) = true := by decide

/-- ReachableStatesMeetTheInvariant: a loaded ROM reaches a waiting state. -/
theorem test_witness_reachable :
    (match State.load [0xF0, 0x0A] ⟨[⟨3, 0⟩], 0⟩ with
      | .next s => commits s (fun t => t.waitKey)
      | .fault _ => false
      | .refused _ => false) = true := by decide

/-- OnlyStoresChangeMemory: the last byte of each store changes, at the top of memory. -/
theorem test_witness_stores :
    (start [(0, 9), (15, 1)] 0xF033).mem.wf ∧
    commits { start [(0, 9)] 0xF033 with I := 0xFFD } (fun t => t.mem.read 0xFFF != 0) = true ∧
    commits { start [(15, 1)] 0xFF55 with I := 0xFF0 } (fun t => t.mem.read 0xFFF != 0) = true := by decide

/-- WritersOfFramebufferIndexAndPendingRegister, OnlyCallAndReturnTouchTheStack: a step that changes each item. -/
theorem test_witness_writers :
    commits (withLit (start [] 0x00E0) 31 63) (fun t => t.fb != (withLit (start [] 0x00E0) 31 63).fb) = true ∧
    commits (start [] 0xA001) (fun t => t.I != 0) = true ∧ commits (start [] 0xFF0A) (fun t => t.waitX != 0) = true ∧
    commits { start [] 0x2300 with sp := 15 } (fun t => t.stack[15] != 0 && t.sp == 16) = true ∧
    commits { start [] 0x00EE with sp := 16 } (fun t => t.sp == 15) = true := by decide

/-- WritersOfTheFlagRegister: a side effect, a destination, and each flag writer with the destination 14. -/
theorem test_witness_flag :
    completes (.addReg 0 1) ((State.reset.setReg 0 255).setReg 1 1) (fun t => t.reg 15 != 0) = true ∧
    completes (.ldImm 15 2) State.reset (fun t => t.reg 15 != 0) = true ∧
    (14 : Reg) ≠ 15 ∧ ∀ i ∈ [Instr.addReg 14 15, .sub 14 15, .subn 14 15, .shr 14 15, .shl 14 15, .drw 14 15 0],
      completes i (State.reset.setReg 15 7) (fun t => decide (t.reg 15 = 0 ∨ t.reg 15 = 1)) = true := by decide

/-- InputsReachOnlyTheirReaders: an instruction that reads neither input, with both changed; a key skip with the random
byte changed; `Cxnn` with the key changed; and a condition. -/
theorem test_witness_inputs :
    (∀ x, Instr.ldVxK 0 ≠ .skp x ∧ Instr.ldVxK 0 ≠ .sknp x) ∧ (∀ x nn, Instr.ldVxK 0 ≠ .rnd x nn) ∧
    (InputPort.mk [⟨16, 1⟩] 0).now.key = (withInput State.reset 16 2).key ∧ (∀ x nn, Instr.skp 0 ≠ .rnd x nn) ∧
    (InputPort.mk [⟨1, 255⟩] 0).now.rnd = (withInput State.reset 2 255).rnd ∧
    completes (.rnd 0 255) (withInput State.reset 2 255) (fun _ => true) = true ∧
    errOf (exec .ret State.reset) = some (.stackUnderflow 0x200) := by
  refine ⟨by simp, by simp, ?_⟩
  refine ⟨by decide, by simp, by decide, by decide, by decide⟩

/-- CanonicalMemoryIsUnique: canonical memories, built in two orders. -/
theorem test_witness_canonical :
    (Memory.write (Memory.write [] 0xFFF 1) 0x50 2).wf ∧ (Memory.write (Memory.write [] 0x50 2) 0xFFF 1).wf ∧
    Memory.write (Memory.write [] 0xFFF 1) 0x50 2 = Memory.write (Memory.write [] 0x50 2) 0xFFF 1 := by decide

/-- StoredInstructionIsFetchedNext: over the last word of memory. -/
theorem test_witness_stored :
    (startAt 0xFFC [(0, 0x12), (1, 0x34)] 0xF155).mem.wf ∧ (startAt 0xFFC [] 0xF155).pc.toNat + 1 ≤ 0xFFF ∧
    ({ startAt 0xFFC [] 0xF155 with I := 0xFFE } : State).I.toNat = (startAt 0xFFC [] 0xF155).pc.toNat + 2 ∧
    completes (.stRegs 1) { startAt 0xFFC [(0, 0x12), (1, 0x34)] 0xF155 with I := 0xFFE }
      (fun t => t.wordAt t.pc.toNat == 0x1234) = true := by decide

/-- JumpToSelfIsAFixedPoint. -/
theorem test_witness_jump_to_self :
    (startAt 0xFFE [] 0x1FFE).waitKey = false ∧ (startAt 0xFFE [] 0x1FFE).atJumpToSelf = true := by decide

/-- PlacedWordRunsNext: one that commits, one that raises, from a state whose `pc` cannot be fetched. -/
theorem test_witness_placed :
    ({ State.reset with pc := 0xFFF } : State).mem.wf ∧ decodeTableWord 16 0x00E0 = some .cls ∧
    completes .cls (({ State.reset with pc := 0xFFF } : State).withFetchWord 16 0x00E0).tickTimers (fun _ => true) = true ∧
    decodeTableWord 16 0x00EE = some .ret ∧
    errOf (exec .ret (State.reset.withFetchWord 16 0x00EE).tickTimers) = some (.stackUnderflow 0x200) := by decide

/-- RetPopsIntoPc: `sp` 0, 1 and 16, a bounded stack, and a popped address whose fetch raises. -/
theorem test_witness_ret :
    State.reset.waitKey = false ∧ State.reset.sp.val = 0 ∧ 0 < ({ State.reset with sp := 1 } : State).sp.val ∧
    ({ State.reset with sp := 16, stack := Vector.replicate 16 0xFFF } : State).stackBounded ∧
    completes .ret { State.reset with sp := 16, stack := Vector.replicate 16 0xFFF }
      (fun t => t.pc == 0xFFF && raises t (.addressOutOfRange 0xFFF)) = true := by decide

/-- JpSetsPc, JpV0AddsRegisterZero: a target whose fetch raises, and the last that can be fetched. -/
theorem test_witness_jumps :
    State.reset.waitKey = false ∧ completes (.jp 0xFFF) State.reset (fun t => raises t (.addressOutOfRange 0xFFF)) = true ∧
    completes (.jpV0 0xFFF) State.reset (fun t => decide (0xFFE < t.pc.toNat)) = true ∧
    completes (.jpV0 0xFFE) State.reset (fun t => decide (t.pc.toNat ≤ 0xFFE)) = true := by decide

/-- CallPushesAndJumps, ReturnResumesAfterTheCall: `sp` 15 and 16; the stack a call left. -/
theorem test_witness_call :
    ({ State.reset with sp := 16 } : State).sp.val = 16 ∧ ({ State.reset with sp := 15 } : State).sp.val < 16 ∧
    completes (.call 0) { State.reset with sp := 15, pc := 0xFFE } (fun t => t.stack[15] == 0x1000 && t.sp == 16) = true := by
  decide

/-- SkipsOnComparison, KeySkipsCompareTheKeyCode: the clause of the last address, skipping and not. -/
theorem test_witness_skips :
    (startAt 0xFFE [] 0x3000).waitKey = false ∧ (startAt 0xFFE [] 0x3000).pc = 0xFFE ∧
    commits (startAt 0xFFE [] 0x3000) (fun t => raises t (.addressOutOfRange 0x1002)) = true ∧
    commits (startAt 0xFFE [] 0x4000) (fun t => raises t (.addressOutOfRange 0x1000)) = true := by decide

/-- AddRegWrapsAndSetsCarry, SubtractionsWrapAndSetNotBorrow, ShiftsByOneInPlace: each side of each condition. -/
theorem test_witness_alu :
    (14 : Reg) ≠ 15 ∧ (15 : Reg) = 15 ∧
    completes (.addReg 14 1) ((State.reset.setReg 14 255).setReg 1 1) (fun t => t.reg 14 == 0 && t.reg 15 == 1) = true ∧
    completes (.addReg 14 1) (State.reset.setReg 14 255) (fun t => t.reg 14 == 255 && t.reg 15 == 0) = true ∧
    completes (.sub 14 1) (State.reset.setReg 1 1) (fun t => t.reg 14 == 255 && t.reg 15 == 0) = true ∧
    completes (.subn 14 1) (State.reset.setReg 1 1) (fun t => t.reg 14 == 1 && t.reg 15 == 1) = true ∧
    completes (.shl 15 0) (State.reset.setReg 15 128) (fun t => t.reg 15 == 2) = true := by decide

/-- AddIAddsOrRaises, LdFPointsAtTheGlyph, LdBStoresTheDigits, StRegsStoresTheRegisters, LdRegsLoadsTheRegisters: the
bounds of the clauses. -/
theorem test_witness_index :
    ({ State.reset with I := 0xFFFF } : State).I.toNat + (State.reset.reg 0).toNat ≤ 0xFFFF ∧
    0xFFFF < ({ State.reset with I := 0xFFFF } : State).I.toNat + ((State.reset.setReg 0 1).reg 0).toNat ∧
    ((State.reset.setReg 0 15).reg 0).toNat ≤ 15 ∧ State.reset.mem.wf ∧
    ({ State.reset with I := 0xFFD } : State).I.toNat ≤ 0xFFD ∧ 0xFFD < ({ State.reset with I := 0xFFE } : State).I.toNat ∧
    ({ State.reset with I := 0xFF0 } : State).I.toNat + (15 : Reg).val ≤ 0xFFF ∧
    0xFFF < ({ State.reset with I := 0xFF1 } : State).I.toNat + (15 : Reg).val ∧
    (15 : Reg) ≤ 15 ∧ (14 : Reg) < 15 ∧ (0xFEF < 0xFF0 ∧ 0xFF0 + 14 < 0xFFF) := by decide

/-- A state with one sprite byte, its top bit set, at the last address. -/
def spriteAtTop : State := withBytes { State.reset with I := 0xFFF } 0xFFF [0x80]

/-- DrwInvertsTheSpriteCells, DrawingTwiceRestores, DrawChangesOneCellPerSpriteBit: no row with `I` at its greatest; the
last range that fits and the first that does not; a covered cell, unlit and lit, and one that is not covered. -/
theorem test_witness_draw :
    (0 : Nibble).toNat = 0 ∧ spriteAtTop.I.toNat + (1 : Nibble).toNat - 1 ≤ 0xFFF ∧ 0 < (2 : Nibble).toNat ∧
    0xFFF < spriteAtTop.I.toNat + (2 : Nibble).toNat - 1 ∧
    completes (.drw 0 0 1) spriteAtTop (fun t => t.pixel 0 0 && !t.pixel 0 1 && t.reg 15 == 0) = true ∧
    completes (.drw 0 0 1) (withLit spriteAtTop 0 0) (fun t => !t.pixel 0 0 && t.reg 15 == 1) = true := by decide

/-- The covered cell of `spriteAtTop`. -/
theorem test_witness_covers : spriteAtTop.spriteCovers 0 0 1 0 0 := ⟨0, 0, by decide, by decide, by decide, by decide, by decide⟩

end Sys2Proof.Tests
end

section
/-! PROOFS. The key-wait flag (10_state.md R28). -/

namespace Sys2Proof.Machine

/-- From a running state an instruction enters the key-wait exactly when it is `Fx0A` (46_key_timer.md R163). -/
theorem exec_enters_wait_iff {i : Instr} {s t : State} (h : exec i s = .next t) (hw : s.waitKey = false) :
    t.waitKey = true ↔ ∃ x, i = .ldVxK x := by
  rcases exec_wait h with ⟨x, rfl, rfl⟩ | ⟨hne, hkeep, -⟩
  · exact iff_of_true rfl ⟨x, rfl⟩
  · exact iff_of_false (by simp [hkeep, hw]) (fun ⟨x, hx⟩ => hne x hx)

/-- Settles O19, by the three ways a step can commit. -/
theorem keyWaitIsEnteredOnlyByFx0A : Obligations.KeyWaitIsEnteredOnlyByFx0A := by
  refine ⟨rfl, fun s t h => ?_⟩
  obtain ⟨-, ⟨hw, hk, rfl⟩ | ⟨hw, hk, rfl⟩ | ⟨hw, i, u, hd, he, rfl⟩⟩ := step_eq_next.mp h
  · -- blocked without a key: the flag stays
    simp [hw, hk]
  · -- blocked with a key: the wait ends
    simp [hw, hk]
  · -- an instruction, run on the ticked state
    simpa [hw, hd] using exec_enters_wait_iff he hw

end Sys2Proof.Machine
end

section
/-! PROOFS. The next program counter of every instruction (40_step_cycle.md R96). -/

namespace Sys2Proof.Machine

/-- A skip's next `pc` as a number, its Boolean condition read as a proposition (41_flow.md R113 to R116). -/
theorem skipIf_pc_toNat {c : Bool} {p : Prop} [Decidable p] {s t : State} (hc : c = true ↔ p)
    (hpc : s.pc.toNat ≤ 0xFFFB) (h : skipIf c s = .next t) :
    t.pc.toNat = s.pc.toNat + if p then 4 else 2 := by
  injection h with h; subst h
  cases c with
  | true =>
    rw [if_pos (hc.mp rfl)]
    exact BitVec.toNat_add_of_lt (y := 4) (show s.pc.toNat + 4 < 2 ^ 16 by omega)
  | false =>
    rw [if_neg (mt hc.mpr Bool.false_ne_true)]
    exact BitVec.toNat_add_of_lt (y := 2) (show s.pc.toNat + 2 < 2 ^ 16 by omega)

/-- The key code, widened, is a register's byte exactly when the numbers agree (46_key_timer.md R160). -/
theorem zextKey_eq_iff (k : Key) (b : Byte) : zextKey k = b ↔ k.val = b.toNat := by
  rw [BitVec.toNat_eq, zextKey_toNat]

/-- The target of `Bnnn` is the exact sum, at most 0xFFF + 0xFF, so it fits the 16 bits of `pc` (41_flow.md R117). -/
theorem zextAddr_add_zextByte_toNat (a : Addr) (b : Byte) : (zextAddr a + zextByte b).toNat = a.toNat + b.toNat := by
  have hfits : (zextAddr a).toNat + (zextByte b).toNat < 2 ^ 16 := by rw [zextAddr_toNat, zextByte_toNat]; omega
  rw [BitVec.toNat_add_of_lt hfits, zextAddr_toNat, zextByte_toNat]

/-- Settles O20, one case for each shape of the next `pc`: a stack entry, a target, a skip, the wait's own `pc`, and the
fall-through of all the rest. -/
theorem nextPcOfEveryInstruction : Obligations.NextPcOfEveryInstruction := by
  intro i s t hfetch h
  have hskip : s.pc.toNat ≤ 0xFFFB := by omega
  have hfall : s.pc.toNat ≤ 0xFFFD := by omega
  cases i with
  | ret => obtain ⟨hsp, rfl⟩ := exec_ret_next h; exact Vector.getElem?_eq_getElem _
  | call nnn => obtain ⟨-, rfl⟩ := exec_call_next h; exact zextAddr_toNat nnn
  | jp nnn => injection h with h; subst h; exact zextAddr_toNat nnn
  | jpV0 nnn => injection h with h; subst h; exact zextAddr_add_zextByte_toNat nnn (s.reg 0)
  | seImm x nn => exact skipIf_pc_toNat beq_iff_eq hskip h
  | sneImm x nn => exact skipIf_pc_toNat bne_iff_ne hskip h
  | seReg x y => exact skipIf_pc_toNat beq_iff_eq hskip h
  | sneReg x y => exact skipIf_pc_toNat bne_iff_ne hskip h
  | skp x => exact skipIf_pc_toNat (beq_iff_eq.trans (zextKey_eq_iff s.key (s.reg x))) hskip h
  | sknp x => exact skipIf_pc_toNat (bne_iff_ne.trans (zextKey_eq_iff s.key (s.reg x)).not) hskip h
  | ldVxK x => injection h with h; subst h; rfl
  | drw x y n => obtain ⟨-, rfl⟩ := exec_drw_next h; exact State.advance_pc_toNat _ hfall
  | addI x => obtain ⟨-, rfl⟩ := exec_addI_next h; exact State.advance_pc_toNat _ hfall
  | ldB x => obtain ⟨-, rfl⟩ := exec_ldB_next h; exact State.advance_pc_toNat _ hfall
  | stRegs x => obtain ⟨-, rfl⟩ := exec_stRegs_next h; exact State.advance_pc_toNat _ hfall
  | ldRegs x => obtain ⟨-, rfl⟩ := exec_ldRegs_next h; exact State.advance_pc_toNat _ hfall
  | _ => injection h with h; subst h; exact State.advance_pc_toNat _ hfall

end Sys2Proof.Machine
end

section
/-! PROOFS. Control transfer (41_flow.md). -/

namespace Sys2Proof.Machine

/-! ### The next fetch, and what a new `pc` leaves alone -/

/-- A step whose word would not lie whole in memory raises at its fetch (40_step_cycle.md R91). -/
theorem step_of_pc_outside {t : State} (h : 0xFFE < t.pc.toNat) : step t = .fault (.addressOutOfRange t.pc.toNat) :=
  fetch_of_outside (Nat.succ_lt_succ h)

/-- A new `pc` changes nothing else: the frame of every transfer that keeps the call stack. -/
theorem State.frame_setPc (s : State) (a : Word) : Frame s (s.setPc a) [] where
  regs _ _ := rfl
  I := rfl
  sp := rfl
  stack := rfl
  dt := rfl
  st := rfl
  waitKey := rfl
  waitX := rfl
  mem _ := rfl
  fb := rfl
  port := rfl

/-! ### Jumps -/

/-- Settles O34: any target is accepted; the fetch after it finds the bad one. -/
theorem jpSetsPc : Obligations.JpSetsPc := by
  intro nnn s
  refine ⟨encodeAddr_toNat 1 nnn, _, rfl, zextAddr_toNat nnn, s.frame_setPc _, ?_⟩
  rintro - rfl
  exact step_of_pc_outside (t := s.setPc (zextAddr 0xFFF)) (show 0xFFE < (zextAddr 0xFFF).toNat by decide)

/-- Settles O38: the target is the exact sum. -/
theorem jpV0AddsRegisterZero : Obligations.JpV0AddsRegisterZero := fun nnn s =>
  ⟨encodeAddr_toNat 0xB nnn, _, rfl, zextAddr_add_zextByte_toNat nnn (s.reg 0), s.frame_setPc _,
    fun _ => step_of_pc_outside⟩

/-! ### Skips -/

/-- A skip from the last address that can be fetched goes to 0x1000 or 0x1002, beyond memory. -/
theorem skip_from_last_word_outside (p : Prop) [Decidable p] :
    0xFFE < ((0xFFE : Word) + if p then 4 else 2).toNat := by
  split <;> decide

/-- An instruction that is a skip skips when its Boolean condition, read as a proposition, holds. -/
theorem skipsWhen_of_skipIf {i : Instr} {s : State} {c : Bool} {p : Prop} [Decidable p] (he : exec i s = skipIf c s)
    (hc : c = true ↔ p) : SkipsWhen i s p := by
  refine ⟨_, he, by simp [hc], s.frame_setPc _, fun _ hpc => step_of_pc_outside ?_⟩
  simpa [hpc, hc] using skip_from_last_word_outside p

/-- Format `REG_IMM` with the weight of each digit first, as the statements write it (30_encoding.md R71). -/
theorem encodeRegImm_toNat_digits (op : Nibble) (x : Reg) (nn : Byte) :
    (encodeRegImm op x nn).toNat = 0x1000 * op.toNat + 0x100 * x.val + nn.toNat := by
  rw [encodeRegImm_toNat]; omega

/-- Format `REG_REG` with the weight of each digit first. -/
theorem encodeRegReg_toNat_digits (op : Nibble) (x y : Reg) (n : Nibble) :
    (encodeRegReg op x y n).toNat = 0x1000 * op.toNat + 0x100 * x.val + 0x10 * y.val + n.toNat := by
  rw [encodeRegReg_toNat]; omega

/-- Settles O37: the four instructions are skips on the comparison of two bytes. -/
theorem skipsOnComparison : Obligations.SkipsOnComparison := by
  intro x y nn s
  exact ⟨⟨encodeRegImm_toNat_digits 3 x nn, skipsWhen_of_skipIf rfl beq_iff_eq⟩,
    ⟨encodeRegImm_toNat_digits 4 x nn, skipsWhen_of_skipIf rfl bne_iff_ne⟩,
    ⟨encodeRegReg_toNat_digits 5 x y 0, skipsWhen_of_skipIf rfl beq_iff_eq⟩,
    ⟨encodeRegReg_toNat_digits 9 x y 0, skipsWhen_of_skipIf rfl bne_iff_ne⟩⟩

/-! ### Call and return -/

/-- Settles O33, by the two answers of a pop. -/
theorem retPopsIntoPc : Obligations.RetPopsIntoPc := by
  refine ⟨rfl, fun s => ?_⟩
  rcases popReturn_cases s with ⟨hpos, he⟩ | ⟨h0, he⟩
  · have htop : s.sp.val - 1 < s.sp.val := Nat.sub_one_lt_of_lt hpos
    have hentry : s.sp.val - 1 < 16 := htop.trans_le s.sp_le
    exact ⟨fun h0 => absurd h0 hpos.ne', fun _ => ⟨_, he, rfl, Vector.getElem?_eq_getElem hentry, s.frame_setPc _,
      fun hbounded => hbounded ⟨s.sp.val - 1, hentry⟩ htop, fun _ => step_of_pc_outside⟩⟩
  · exact ⟨fun _ => he, fun hpos => absurd h0 hpos.ne'⟩

/-- A return with `a` in the entry below `sp` resumes at `a` (41_flow.md R110). -/
theorem exec_ret_of_top {t : State} {p : Fin 17} {a : Word} (hsp : t.sp.val = p.val + 1)
    (htop : t.stack[p.val]? = some a) : ∃ u, exec .ret t = .next u ∧ u.pc = a ∧ u.sp = p := by
  obtain ⟨u, he, hsp', hpc, -⟩ := (retPopsIntoPc.2 t).2 (by omega)
  rw [hsp, Nat.add_sub_cancel] at hsp' hpc
  exact ⟨u, he, Option.some.inj (hpc.symm.trans htop), Fin.ext hsp'⟩

/-- Settles O35, by the two answers of a push; the return pops the entry just pushed. -/
theorem callPushesAndJumps : Obligations.CallPushesAndJumps := by
  intro nnn s
  refine ⟨encodeAddr_toNat 2 nnn, ?_⟩
  rcases callTo_cases (zextAddr nnn) s with ⟨hroom, he⟩ | ⟨hfull, he⟩
  · refine ⟨fun hfull => absurd hfull hroom.ne, fun _ => ?_⟩
    have hpushed : (s.stack.set s.sp.val (s.pc + 2))[s.sp.val]? = some (s.pc + 2) := Vector.getElem?_set_self hroom
    exact ⟨_, he, zextAddr_toNat nnn, rfl, hpushed, fun k hk => Vector.getElem_set_ne hroom k.isLt hk.symm,
      s.frame_setPc _, exec_ret_of_top rfl hpushed⟩
  · exact ⟨fun _ => he, fun hroom => absurd hfull hroom.ne⟩

end Sys2Proof.Machine
end

section
/-! PROOFS. Register-immediate instructions (42_immediate_random.md). -/

namespace Sys2Proof.Machine

/-- A register write followed by the fall-through keeps every other register and every other item. -/
theorem State.frame_setReg_advance (s : State) (x : Reg) (b : Byte) : Frame s (s.setReg x b).advance [x] where
  regs r hr := by rw [State.reg_advance, State.reg_setReg, if_neg (List.ne_of_not_mem_cons hr)]
  I := rfl
  sp := rfl
  stack := rfl
  dt := rfl
  st := rfl
  waitKey := rfl
  waitX := rfl
  mem _ := rfl
  fb := rfl
  port := rfl

/-- An instruction that is one register write and then falls through does that and nothing else. -/
theorem writesRegister_of_fallThrough {i : Instr} {s : State} {x : Reg} {b : Byte}
    (he : exec i s = fallThrough (s.setReg x b)) : WritesRegister i s x b :=
  ⟨_, he, by rw [State.reg_advance, State.reg_setReg, if_pos rfl], rfl, s.frame_setReg_advance x b⟩

theorem ldImm_writesRegister (x : Reg) (nn : Byte) (s : State) : WritesRegister (.ldImm x nn) s x nn :=
  writesRegister_of_fallThrough rfl

theorem addImm_writesRegister (x : Reg) (nn : Byte) (s : State) :
    WritesRegister (.addImm x nn) s x (s.reg x + nn) :=
  writesRegister_of_fallThrough rfl

/-- Settles O39: the instruction is one register write. -/
theorem ldImmLoadsTheImmediate : Obligations.LdImmLoadsTheImmediate := fun x nn s =>
  ⟨encodeRegImm_toNat_digits 6 x nn, ldImm_writesRegister x nn s⟩

/-- Settles O40: the sum of two bytes wraps, and the frame leaves `VF` out unless it is the destination. For `6xnn` and
then `7xnn` the two writes, to the same register, are chained. -/
theorem addImmWrapsWithoutFlag : Obligations.AddImmWrapsWithoutFlag := by
  intro x nn s
  refine ⟨encodeRegImm_toNat_digits 7 x nn, ?_, ?_⟩
  · obtain ⟨t, ht, hreg, hpc, hframe⟩ := addImm_writesRegister x nn s
    exact ⟨t, ht, by rw [hreg, BitVec.toNat_add], hpc, hframe⟩
  · obtain ⟨u, hu, hureg, hupc, huframe⟩ := ldImm_writesRegister x nn s
    obtain ⟨t, ht, htreg, htpc, htframe⟩ := addImm_writesRegister x nn u
    refine ⟨u, t, hu, ht, ?sum, ?pc, fun hx => ?flag⟩
    case sum => rw [htreg, hureg, BitVec.toNat_add]
    case pc => rw [htpc, hupc, BitVec.add_assoc]; rfl
    case flag =>
      have hflag : (15 : Reg) ∉ [x] := mt List.mem_singleton.mp hx.symm
      rw [htframe.regs 15 hflag, huframe.regs 15 hflag]

end Sys2Proof.Machine
end

section
/-! PROOFS. The index register and memory: `Annn` and `Fx33` (44_index_memory.md). -/

namespace Sys2Proof.Machine

/-! ### Reads after a store -/

/-- The `k`-th byte of a store reads back at `k` places past its first address. -/
theorem Memory.read_store_add {m : Memory} (h : m.wf) (a : Nat) {bs : List Byte} {k : Nat} (hk : k < bs.length) :
    (m.store a bs).read (a + k) = bs[k] := by
  rw [Memory.read_store a bs (a + k) h.1, if_pos (Nat.le_add_right a k), Nat.add_sub_cancel_left,
    ← List.getElem_eq_getD]

/-- A store leaves every byte outside its range as it was (20_memory.md R58). -/
theorem Memory.read_store_outside {m : Memory} (h : m.wf) {a c : Nat} {bs : List Byte}
    (hc : c < a ∨ a + bs.length ≤ c) : (m.store a bs).read c = m.read c := by
  rw [Memory.read_store a bs c h.1]
  rcases hc with hbelow | habove
  · exact if_neg hbelow.not_ge
  · rw [List.getD_eq_default _ _ (Nat.le_sub_of_add_le' habove), ite_self]

/-! ### `Annn` -/

/-- Settles O46: the 12-bit address is widened, and only `I` and `pc` are written. -/
theorem ldISetsTheIndex : Obligations.LdISetsTheIndex := fun nnn s =>
  ⟨encodeAddr_toNat 0xA nnn, _, rfl, zextAddr_toNat nnn, rfl, s.frame_setPc _⟩

/-! ### `Fx33` -/

/-- Format `REG_SUB` as the statements write it: the fixed digits, then the register's (30_encoding.md R71). -/
theorem encodeRegImm_toNat_subOpcode (op : Nibble) (x : Reg) (nn : Byte) :
    (encodeRegImm op x nn).toNat = 0x1000 * op.toNat + nn.toNat + 0x100 * x.val :=
  (encodeRegImm_toNat_digits op x nn).trans (Nat.add_right_comm _ _ _)

/-- A number no greater than a byte is kept exactly by the byte it becomes. -/
theorem toNat_ofNat_of_le_byte {n : Nat} {b : Byte} (h : n ≤ b.toNat) : (BitVec.ofNat 8 n).toNat = n :=
  Nat.mod_eq_of_lt (h.trans_lt b.isLt)

/-- The digits as numbers: none is truncated when it becomes a byte. -/
theorem decimalDigits_toNat (b : Byte) :
    (decimalDigits b).map BitVec.toNat = [b.toNat / 100, b.toNat / 10 % 10, b.toNat % 10] := by
  have hhundreds : b.toNat / 100 ≤ b.toNat := Nat.div_le_self _ _
  have htens : b.toNat / 10 % 10 ≤ b.toNat := (Nat.mod_le _ _).trans (Nat.div_le_self _ _)
  have hunits : b.toNat % 10 ≤ b.toNat := Nat.mod_le _ _
  rw [decimalDigits, List.map_cons, List.map_cons, List.map_singleton, toNat_ofNat_of_le_byte hhundreds,
    toNat_ofNat_of_le_byte htens, toNat_ofNat_of_le_byte hunits]

/-- Each digit of a byte, once stored, reads back as that number (44_index_memory.md R143). -/
theorem Memory.read_store_decimalDigits {m : Memory} (h : m.wf) (a : Nat) (b : Byte) {k : Nat} (hk : k < 3) :
    ((m.store a (decimalDigits b)).read (a + k)).toNat =
      [b.toNat / 100, b.toNat / 10 % 10, b.toNat % 10][k] := by
  have hdigit : k < (decimalDigits b).length := hk
  rw [Memory.read_store_add h a hdigit, ← List.getElem_map (f := BitVec.toNat) (h := by simpa using hdigit)]
  simp only [decimalDigits_toNat]

/-- Settles O49, by the two answers of the bounds check: all three digits are stored, or nothing is. -/
theorem ldBStoresTheDigits : Obligations.LdBStoresTheDigits := by
  intro x s hwf
  refine ⟨encodeRegImm_toNat_subOpcode 0xF x 0x33, ?_⟩
  rcases execLdB_cases x s with ⟨hfits, he⟩ | ⟨hexceeds, he⟩
  · have hdigit {k : Nat} (hk : k < 3) := Memory.read_store_decimalDigits hwf s.I.toNat (s.reg x) hk
    exact ⟨fun _ => ⟨_, he, hdigit (k := 0) (by decide), hdigit (k := 1) (by decide), hdigit (k := 2) (by decide),
      fun a ha => Memory.read_store_outside hwf (ha.imp_right Nat.succ_le_of_lt), rfl, s.frame_setPc _⟩,
      fun hbeyond => absurd hbeyond (by omega)⟩
  · exact ⟨fun hinside => absurd hinside (by omega), fun _ => he⟩

end Sys2Proof.Machine
end

section
/-! PROOFS. The display (45_display.md). -/

namespace Sys2Proof.Machine

/-! ### `00E0` -/

/-- Settles O52: the framebuffer becomes the clear one, in which every cell is unlit; with the old framebuffer put back,
the state left is the first one with `pc` advanced, so nothing else was written, `VF` included. -/
theorem clsUnlightsEveryCell : Obligations.ClsUnlightsEveryCell := by
  refine ⟨rfl, fun s => ?_⟩
  have hexec : exec .cls s = .next { s with fb := .clear }.advance := rfl
  exact ⟨_, hexec, Framebuffer.cell_clear, State.advance_pc _, s.frame_setPc (s.pc + 2)⟩

end Sys2Proof.Machine
end

section
/-! PROOFS. The delay timer (46_key_timer.md). -/

namespace Sys2Proof.Machine

/-- `Fx07` is one register write, of the delay timer as it stands in the state the instruction runs on. -/
theorem ldVxDt_writesRegister (x : Reg) (s : State) : WritesRegister (.ldVxDt x) s x s.dt :=
  writesRegister_of_fallThrough rfl

/-- Settles O57: in a step the same write runs on the ticked state, and its frame keeps the ticked timer. -/
theorem ldVxDtReadsTheDelayTimer : Obligations.LdVxDtReadsTheDelayTimer := by
  intro x s
  obtain ⟨t, ht, hreg, -, hframe⟩ := ldVxDt_writesRegister x s.tickTimers
  have hticked : (t.reg x).toNat = s.dt.toNat - 1 := by rw [hreg, State.tickTimers_dt, countDown_toNat]
  have hkept : t.dt = t.reg x := hframe.dt.trans hreg.symm
  exact ⟨encodeRegImm_toNat_subOpcode 0xF x 0x07, ldVxDt_writesRegister x s, t, ht, hticked, hkept⟩

end Sys2Proof.Machine
end

section
/-! PROOFS. Encoding and decoding (30_encoding.md R70 to R79). -/

namespace Sys2Proof

/-! ### Decoding an encoded word -/

theorem decodeWord_encodeRegReg_alu (x y : Reg) (n : Nibble) :
    decodeWord (encodeRegReg 0x8 x y n) = decodeAlu x y n := by simp [decodeWord]

theorem decodeWord_encodeRegImm_key (x : Reg) (nn : Byte) :
    decodeWord (encodeRegImm 0xE x nn) = decodeKey x nn := by simp [decodeWord]

theorem decodeWord_encodeRegImm_system (x : Reg) (nn : Byte) :
    decodeWord (encodeRegImm 0xF x nn) = decodeSystem x nn := by simp [decodeWord]

/-- Settles O2, by the families of the map: a whole word, a sub-opcode of `8`, `E` or `F`, or the top nibble alone (with
`n = 0` for `5` and `9`), whose operands are the fields of the encoded word. -/
theorem decodeOfEncodeIsTheInstruction : Obligations.DecodeOfEncodeIsTheInstruction := by
  intro i
  cases i with
  | cls | ret => rfl
  | ldReg x y | or x y | and x y | xor x y | addReg x y | sub x y | shr x y | subn x y | shl x y =>
    exact decodeWord_encodeRegReg_alu x y _
  | skp x | sknp x => exact decodeWord_encodeRegImm_key x _
  | ldVxDt x | ldVxK x | ldDtVx x | ldStVx x | addI x | ldF x | ldB x | stRegs x | ldRegs x =>
    exact decodeWord_encodeRegImm_system x _
  | jp nnn | call nnn | ldI nnn | jpV0 nnn => simp [encode, decodeWord]
  | seImm x nn | sneImm x nn | ldImm x nn | addImm x nn | rnd x nn => simp [encode, decodeWord]
  | seReg x y | sneReg x y | drw x y n => simp [encode, decodeWord]

/-! ### Encoding a decoded word -/

/-- A word is put together again from its fields, in each of the three formats (R71). -/
theorem encodeAddr_fields {w : Word} {op : Nibble} (h : (opField w).toNat = op.toNat) :
    encodeAddr op (nnnField w) = w := by
  apply BitVec.eq_of_toNat_eq
  rw [encodeAddr_toNat, ← h, opField_toNat, nnnField_toNat]; omega

theorem encodeRegImm_fields {w : Word} {op : Nibble} (h : (opField w).toNat = op.toNat) :
    encodeRegImm op (xField w) (nnField w) = w := by
  apply BitVec.eq_of_toNat_eq
  rw [encodeRegImm_toNat, ← h, opField_toNat, xField_val, nnField_toNat]; omega

theorem encodeRegReg_fields {w : Word} {op : Nibble} (h : (opField w).toNat = op.toNat) :
    encodeRegReg op (xField w) (yField w) (nField w) = w := by
  apply BitVec.eq_of_toNat_eq
  rw [encodeRegReg_toNat, ← h, opField_toNat, xField_val, yField_val, nField_toNat]; omega

theorem encode_of_decodeFixed {w : Word} {i : Instr} (h : decodeFixed w = some i) : encode i = w := by
  unfold decodeFixed at h
  split at h <;> cases h <;> exact BitVec.eq_of_toNat_eq (Eq.symm ‹_›)

/-- The sub-opcode found is the one encoded: `8xyn`. -/
theorem encode_of_decodeAlu {x y : Reg} {n : Nibble} {i : Instr} (h : decodeAlu x y n = some i) :
    encode i = encodeRegReg 0x8 x y n := by
  unfold decodeAlu at h
  split at h <;> cases h <;> exact congrArg (encodeRegReg 0x8 x y) (BitVec.eq_of_toNat_eq (Eq.symm ‹_›))

/-- The same for `Exnn`. -/
theorem encode_of_decodeKey {x : Reg} {nn : Byte} {i : Instr} (h : decodeKey x nn = some i) :
    encode i = encodeRegImm 0xE x nn := by
  unfold decodeKey at h
  split at h <;> cases h <;> exact congrArg (encodeRegImm 0xE x) (BitVec.eq_of_toNat_eq (Eq.symm ‹_›))

/-- The same for `Fxnn`. -/
theorem encode_of_decodeSystem {x : Reg} {nn : Byte} {i : Instr} (h : decodeSystem x nn = some i) :
    encode i = encodeRegImm 0xF x nn := by
  unfold decodeSystem at h
  split at h <;> cases h <;> exact congrArg (encodeRegImm 0xF x) (BitVec.eq_of_toNat_eq (Eq.symm ‹_›))

/-- Settles O3, by the cases of the decoder on the top nibble: each instruction is put together again from the word's
fields. -/
theorem encodeOfDecodeIsTheWord : Obligations.EncodeOfDecodeIsTheWord := by
  intro w i h
  unfold decodeWord at h
  split at h
  case h_1 => exact encode_of_decodeFixed h
  case h_6 hop | h_10 hop =>
    split at h
    · cases h
      exact (congrArg (encodeRegReg _ (xField w) (yField w)) (Eq.symm ‹_›)).trans (encodeRegReg_fields hop)
    · cases h
  case h_9 hop => exact (encode_of_decodeAlu h).trans (encodeRegReg_fields hop)
  case h_14 hop => cases h; exact encodeRegReg_fields hop
  case h_15 hop => exact (encode_of_decodeKey h).trans (encodeRegImm_fields hop)
  case h_16 =>
    have hop : (opField w).toNat = (0xF : Nibble).toNat := by
      have := (opField w).isLt
      simp only [imp_false, BitVec.ofNat_eq_ofNat, BitVec.toNat_ofNat] at *; omega
    exact (encode_of_decodeSystem h).trans (encodeRegImm_fields hop)
  case h_2 hop | h_3 hop | h_11 hop | h_12 hop => cases h; exact encodeAddr_fields hop
  case h_4 hop | h_5 hop | h_7 hop | h_8 hop | h_13 hop => cases h; exact encodeRegImm_fields hop

/-! ### The illegal words (R75) -/

theorem decodeFixed_eq_none (w : Word) : decodeFixed w = none ↔ w ≠ 0x00E0 ∧ w ≠ 0x00EE := by
  simp only [ne_eq, BitVec.toNat_eq, BitVec.ofNat_eq_ofNat, BitVec.toNat_ofNat]
  unfold decodeFixed
  split <;> simp_all

theorem decodeAlu_eq_none (x y : Reg) (n : Nibble) :
    decodeAlu x y n = none ↔ n.toNat ∈ [0x8, 0x9, 0xA, 0xB, 0xC, 0xD, 0xF] := by
  have := n.isLt
  unfold decodeAlu
  split <;> simp_all
  omega

theorem decodeKey_eq_none (x : Reg) (nn : Byte) : decodeKey x nn = none ↔ nn.toNat ∉ [0x9E, 0xA1] := by
  unfold decodeKey
  split <;> simp_all

theorem decodeSystem_eq_none (x : Reg) (nn : Byte) :
    decodeSystem x nn = none ↔ nn.toNat ∉ [0x07, 0x0A, 0x15, 0x18, 0x1E, 0x29, 0x33, 0x55, 0x65] := by
  unfold decodeSystem
  split <;> simp_all

/-- Settles O6, by the cases of the decoder on the top nibble: for each, one part of the list can hold. -/
theorem illegalWordsAreThoseListed : Obligations.IllegalWordsAreThoseListed := by
  intro w
  have hzero : w.toNat / 0x1000 = 0 ↔ w.toNat < 0x1000 := by omega
  rw [← hzero, ← opField_toNat, ← nField_toNat, ← nnField_toNat]
  unfold decodeWord
  split
  case h_1 hop => simp [hop, decodeFixed_eq_none]
  case h_6 hop | h_10 hop => simp [hop, BitVec.toNat_eq]
  case h_9 hop => simp [hop, decodeAlu_eq_none]
  case h_15 hop => simp [hop, decodeKey_eq_none]
  case h_16 =>
    have hop : (opField w).toNat = 0xF := by
      have := (opField w).isLt
      simp only [imp_false] at *; omega
    simp [hop, decodeSystem_eq_none]
  case h_2 hop | h_3 hop | h_4 hop | h_5 hop | h_7 hop | h_8 hop | h_11 hop | h_12 hop | h_13 hop | h_14 hop =>
    simp [hop]

/-! ### The opcode table (R74) -/

/-- The word of every instruction selects the row of its mnemonic. -/
theorem encodesInItsRow (i : Instr) : Laws.EncodesInItsRow.Statement i := by
  cases i with
  | cls => exact Laws.EncodesInItsRow.cls
  | ret => exact Laws.EncodesInItsRow.ret
  | jp nnn => exact Laws.EncodesInItsRow.jp nnn
  | call nnn => exact Laws.EncodesInItsRow.call nnn
  | seImm x nn => exact Laws.EncodesInItsRow.seImm x nn
  | sneImm x nn => exact Laws.EncodesInItsRow.sneImm x nn
  | seReg x y => exact Laws.EncodesInItsRow.seReg x y
  | ldImm x nn => exact Laws.EncodesInItsRow.ldImm x nn
  | addImm x nn => exact Laws.EncodesInItsRow.addImm x nn
  | ldReg x y => exact Laws.EncodesInItsRow.ldReg x y
  | or x y => exact Laws.EncodesInItsRow.or x y
  | and x y => exact Laws.EncodesInItsRow.and x y
  | xor x y => exact Laws.EncodesInItsRow.xor x y
  | addReg x y => exact Laws.EncodesInItsRow.addReg x y
  | sub x y => exact Laws.EncodesInItsRow.sub x y
  | shr x y => exact Laws.EncodesInItsRow.shr x y
  | subn x y => exact Laws.EncodesInItsRow.subn x y
  | shl x y => exact Laws.EncodesInItsRow.shl x y
  | sneReg x y => exact Laws.EncodesInItsRow.sneReg x y
  | ldI nnn => exact Laws.EncodesInItsRow.ldI nnn
  | jpV0 nnn => exact Laws.EncodesInItsRow.jpV0 nnn
  | rnd x nn => exact Laws.EncodesInItsRow.rnd x nn
  | drw x y n => exact Laws.EncodesInItsRow.drw x y n
  | skp x => exact Laws.EncodesInItsRow.skp x
  | sknp x => exact Laws.EncodesInItsRow.sknp x
  | ldVxDt x => exact Laws.EncodesInItsRow.ldVxDt x
  | ldVxK x => exact Laws.EncodesInItsRow.ldVxK x
  | ldDtVx x => exact Laws.EncodesInItsRow.ldDtVx x
  | ldStVx x => exact Laws.EncodesInItsRow.ldStVx x
  | addI x => exact Laws.EncodesInItsRow.addI x
  | ldF x => exact Laws.EncodesInItsRow.ldF x
  | ldB x => exact Laws.EncodesInItsRow.ldB x
  | stRegs x => exact Laws.EncodesInItsRow.stRegs x
  | ldRegs x => exact Laws.EncodesInItsRow.ldRegs x

theorem OpcodeRow.selects_iff (r : OpcodeRow) (w : Word) : r.selects w = true ↔ w &&& r.mask = r.bits := beq_iff_eq

/-- The masks of the table as numbers: each keeps the top nibble and the sub-opcode of its format. -/
theorem and_FFFF_toNat (w : Word) : (w &&& 0xFFFF).toNat = w.toNat :=
  congrArg BitVec.toNat (BitVec.and_allOnes (x := w))

theorem and_F000_toNat (w : Word) : (w &&& 0xF000).toNat = w.toNat / 0x1000 * 0x1000 := by
  rw [and_F000, encodeAddr_toNat, opField_toNat]; simp

theorem and_F00F_toNat (w : Word) : (w &&& 0xF00F).toNat = w.toNat / 0x1000 * 0x1000 + w.toNat % 0x10 := by
  rw [and_F00F, encodeRegReg_toNat, opField_toNat, nField_toNat]; simp

theorem and_F0FF_toNat (w : Word) : (w &&& 0xF0FF).toNat = w.toNat / 0x1000 * 0x1000 + w.toNat % 0x100 := by
  rw [and_F0FF, encodeRegImm_toNat, opField_toNat, nnField_toNat]; simp

/-- A word that selects a row is none of the illegal ones: row by row, the numbers of its fields are in no part of R75. -/
theorem decodeWord_ne_none_of_selects {r : OpcodeRow} {w : Word} (hr : r ∈ opcodeRows) (h : r.selects w = true) :
    decodeWord w ≠ none := by
  have hw := congrArg BitVec.toNat ((r.selects_iff w).mp h)
  rw [ne_eq, illegalWordsAreThoseListed w]
  simp only [ne_eq, BitVec.toNat_eq, List.mem_cons, List.not_mem_nil, or_false]
  fin_cases hr <;> simp only [and_FFFF_toNat, and_F000_toNat, and_F00F_toNat, and_F0FF_toNat] at hw <;>
    simp only [BitVec.ofNat_eq_ofNat, BitVec.toNat_ofNat] at hw ⊢ <;> omega

/-- Settles O4: an instruction's word selects its row, and a legal word is the word of its instruction; a word that
selects a row is legal. -/
theorem decoderAgreesWithOpcodeTable : Obligations.DecoderAgreesWithOpcodeTable := by
  intro w
  have hrow : ∀ i, decodeWord w = some i → ∃ r ∈ opcodeRows, r.mnemonic = i.mnemonic ∧ r.selects w = true := by
    intro i hi
    rw [← encodeOfDecodeIsTheWord w i hi]; exact encodesInItsRow i
  refine ⟨hrow, fun hnone r hr => ?_, fun hall => ?_⟩
  · exact Bool.eq_false_iff.mpr fun hsel => decodeWord_ne_none_of_selects hr hsel hnone
  · refine Option.eq_none_iff_forall_ne_some.mpr fun i hi => ?_
    obtain ⟨r, hr, -, hsel⟩ := hrow i hi
    exact Bool.false_ne_true ((hall r hr).symm.trans hsel)

/-- Two rows whose bits agree under both masks are one row: no other pair of the 34 has a word in common. -/
theorem opcodeRows_eq_of_agree :
    ∀ r₁ ∈ opcodeRows, ∀ r₂ ∈ opcodeRows, r₁.bits &&& r₂.mask = r₂.bits &&& r₁.mask → r₁ = r₂ := by
  decide

/-- Settles O5: under both masks a word selected by two rows gives the bits of either. -/
theorem opcodeRowsAreDisjoint : Obligations.OpcodeRowsAreDisjoint := by
  refine ⟨rfl, fun r₁ hr₁ r₂ hr₂ w h₁ h₂ => opcodeRows_eq_of_agree r₁ hr₁ r₂ hr₂ ?_⟩
  rw [← (r₁.selects_iff w).mp h₁, ← (r₂.selects_iff w).mp h₂, BitVec.and_assoc, BitVec.and_assoc,
    BitVec.and_comm r₁.mask]

/-- Settles O1, by running the decoder on each word. -/
theorem wordsOfTheSpecDecode : Obligations.WordsOfTheSpecDecode := by
  unfold Obligations.WordsOfTheSpecDecode
  decide

/-! ### Written forms (R79) -/

theorem regOf_val (x : Reg) : regOf x.val = x := Fin.ext (Nat.mod_eq_of_lt x.isLt)

theorem fits_reg_iff (a : Nat) : OperandKind.reg.fits a = true ↔ ∃ x : Reg, a = x.val :=
  decide_eq_true_iff.trans ⟨fun h => ⟨⟨a, h⟩, rfl⟩, fun ⟨x, hx⟩ => hx ▸ x.isLt⟩

theorem fits_imm8_iff (a : Nat) : OperandKind.imm8.fits a = true ↔ ∃ nn : Byte, a = nn.toNat :=
  decide_eq_true_iff.trans ⟨fun h => ⟨⟨a, h⟩, rfl⟩, fun ⟨nn, hnn⟩ => hnn ▸ nn.isLt⟩

theorem fits_addr12_iff (a : Nat) : OperandKind.addr12.fits a = true ↔ ∃ nnn : Addr, a = nnn.toNat :=
  decide_eq_true_iff.trans ⟨fun h => ⟨⟨a, h⟩, rfl⟩, fun ⟨nnn, hnnn⟩ => hnnn ▸ nnn.isLt⟩

theorem fits_count4_iff (a : Nat) : OperandKind.count4.fits a = true ↔ ∃ n : Nibble, a = n.toNat :=
  decide_eq_true_iff.trans ⟨fun h => ⟨⟨a, h⟩, rfl⟩, fun ⟨n, hn⟩ => hn ▸ n.isLt⟩

theorem fitsAll_nil_iff (l : List Nat) : fitsAll [] l = true ↔ l = [] := by
  cases l <;> simp [fitsAll]

theorem fitsAll_cons_iff (k : OperandKind) (ks : List OperandKind) (l : List Nat) :
    fitsAll (k :: ks) l = true ↔ ∃ a as, l = a :: as ∧ k.fits a = true ∧ fitsAll ks as = true := by
  cases l <;> simp [fitsAll]

/-- The written form of every instruction is accepted. -/
theorem wellFormed_written (i : Instr) : i.written.wellFormed = true := by
  cases i <;> simp [Instr.written, Written.wellFormed, Mnemonic.operands, fitsAll_nil_iff, fitsAll_cons_iff,
    fits_reg_iff, fits_imm8_iff, fits_addr12_iff, fits_count4_iff]

/-- Its operands are built into those it was written from. -/
theorem build_written (i : Instr) : i.written.mnemonic.build i.written.operands = some i := by
  cases i <;> simp [Instr.written, Mnemonic.build, regOf_val]

/-- Numbers that fit the operands of a mnemonic are those of an instruction, so building loses nothing. -/
theorem written_of_build {m : Mnemonic} {l : List Nat} {i : Instr} (hfits : fitsAll m.operands l = true)
    (h : m.build l = some i) : i.written = ⟨m, l⟩ := by
  cases m <;>
    simp only [Mnemonic.operands, fitsAll_nil_iff, fitsAll_cons_iff, fits_reg_iff, fits_imm8_iff, fits_addr12_iff,
      fits_count4_iff] at hfits
  case cls | ret => obtain rfl := hfits; cases h; rfl
  case jp | call | ldI | jpV0 =>
    obtain ⟨_, _, rfl, ⟨nnn, rfl⟩, rfl⟩ := hfits
    cases h; simp [Instr.written]
  case skp | sknp | ldVxDt | ldVxK | ldDtVx | ldStVx | addI | ldF | ldB | stRegs | ldRegs =>
    obtain ⟨_, _, rfl, ⟨x, rfl⟩, rfl⟩ := hfits
    cases h; simp [Instr.written, regOf_val]
  case drw =>
    obtain ⟨_, _, rfl, ⟨x, rfl⟩, _, _, rfl, ⟨y, rfl⟩, _, _, rfl, ⟨n, rfl⟩, rfl⟩ := hfits
    cases h; simp [Instr.written, regOf_val]
  case seImm | sneImm | ldImm | addImm | rnd =>
    obtain ⟨_, _, rfl, ⟨x, rfl⟩, _, _, rfl, ⟨nn, rfl⟩, rfl⟩ := hfits
    cases h; simp [Instr.written, regOf_val]
  case seReg | sneReg | ldReg | or | and | xor | addReg | sub | shr | subn | shl =>
    obtain ⟨_, _, rfl, ⟨x, rfl⟩, _, _, rfl, ⟨y, rfl⟩, rfl⟩ := hfits
    cases h; simp [Instr.written, regOf_val]

/-- Settles O7: what is written is accepted and built, and what is accepted was written. -/
theorem writtenFormsRoundTrip : Obligations.WrittenFormsRoundTrip := by
  refine ⟨fun i => ⟨wellFormed_written i, (if_pos (wellFormed_written i)).trans (build_written i)⟩, fun w i h => ?_⟩
  obtain ⟨hwf, hbuild⟩ := Option.ite_none_right_eq_some.mp h
  exact written_of_build hwf hbuild

end Sys2Proof
end

section
/-! PROOFS. The invariant of the reachable states (10_state.md R35). -/

namespace Sys2Proof.Machine

/-! ### Each part of the invariant after an instruction -/

theorem exec_keeps_mem_wf {i : Instr} {s t : State} (hwf : s.mem.wf) (h : exec i s = .next t) : t.mem.wf := by
  rcases exec_mem h with ⟨x, rfl | rfl⟩ | hmem
  · obtain ⟨hfits, rfl⟩ := exec_ldB_next h
    exact Memory.store_wf hwf hfits
  · obtain ⟨hfits, rfl⟩ := exec_stRegs_next h
    exact Memory.store_wf hwf (by rw [List.length_map, regsUpTo_length]; exact hfits)
  · exact hmem ▸ hwf

/-- The greatest next `pc` is that of `Bnnn`, 0xFFF + 0xFF. -/
theorem exec_pc_le {i : Instr} {s t : State} (hfetch : s.pc.toNat + 1 ≤ 0xFFF) (hstack : s.stackBounded)
    (h : exec i s = .next t) : t.pc.toNat ≤ 0x10FE := by
  have hpc := nextPcOfEveryInstruction i s t hfetch h
  cases i with
  | ret =>
    obtain ⟨hpos, rfl⟩ := exec_ret_next h
    have hsp := s.sp_le
    have htop := hstack ⟨s.sp.val - 1, by omega⟩ (Nat.sub_one_lt_of_lt hpos)
    exact htop.trans (by decide)
  | jp nnn | call nnn | jpV0 nnn => dsimp only at hpc; omega
  | seImm | sneImm | seReg | sneReg | skp | sknp => dsimp only at hpc; split at hpc <;> omega
  | ldVxK => rw [hpc]; omega
  | _ => dsimp only at hpc; omega

theorem State.pc_add_two_le (s : State) (hfetch : s.pc.toNat + 1 ≤ 0xFFF) : (s.pc + 2).toNat ≤ 0x1000 := by
  rw [← s.advance_pc, s.advance_pc_toNat (by omega)]; omega

/-- A call pushes at most 0x1000, the address after the last word; a return drops an entry. -/
theorem exec_keeps_stackBounded {i : Instr} {s t : State} (hfetch : s.pc.toNat + 1 ≤ 0xFFF) (hstack : s.stackBounded)
    (h : exec i s = .next t) : t.stackBounded := by
  rcases exec_stack h with ⟨nnn, rfl⟩ | rfl | ⟨hkeep, hsp⟩
  · obtain ⟨hroom, rfl⟩ := exec_call_next h
    intro k hk
    have hpushed := s.pc_add_two_le hfetch
    by_cases hks : s.sp.val = k.val
    · simpa [hks] using hpushed
    · have hold := hstack k (by dsimp only at hk; omega)
      simpa [Vector.getElem_set_ne hroom k.isLt hks] using hold
  · obtain ⟨hpos, rfl⟩ := exec_ret_next h
    intro k hk
    exact hstack k (by dsimp only at hk; omega)
  · intro k hk
    rw [hsp] at hk
    simpa only [hkeep] using hstack k hk

/-- A wait begins at the `Fx0A` just fetched, and no other instruction begins one. -/
theorem exec_waitsAtKeyWait {i : Instr} {s t : State} (hfetch : s.pc.toNat + 1 ≤ 0xFFF) (hw : s.waitKey = false)
    (hd : decodeWord (s.wordAt s.pc.toNat) = some i) (h : exec i s = .next t) : t.waitsAtKeyWait := by
  rcases exec_wait h with ⟨x, rfl, rfl⟩ | ⟨-, hkeep, -⟩
  · exact fun _ => ⟨hfetch, hd⟩
  · exact fun ht => absurd ht (by simp [hkeep, hw])

/-! ### Steps and runs -/

/-- Settles O21, by the three ways a step can commit. -/
theorem stepKeepsTheInvariant : Obligations.StepKeepsTheInvariant := by
  intro s t hinv h
  have ⟨hmem, _, hstack, _⟩ := hinv
  obtain ⟨hfetch, ⟨-, -, rfl⟩ | ⟨-, -, rfl⟩ | ⟨hw, i, u, hd, he, rfl⟩⟩ := step_eq_next.mp h
  · -- blocked without a key: nothing but the inputs has moved
    exact hinv
  · -- blocked with a key: `pc` passes the `Fx0A` and the wait is over
    have hpc : (s.pc + 2).toNat ≤ 0x10FE := (s.pc_add_two_le hfetch).trans (by decide)
    exact ⟨hmem, hpc, hstack, fun hwait => nomatch hwait⟩
  · -- an instruction, run on the ticked state
    have hu : u.Inv := ⟨exec_keeps_mem_wf (s := s.tickTimers) hmem he,
      exec_pc_le (s := s.tickTimers) hfetch hstack he, exec_keeps_stackBounded (s := s.tickTimers) hfetch hstack he,
      exec_waitsAtKeyWait (s := s.tickTimers) hfetch hw hd he⟩
    exact hu

/-- Settles O22: the memory is canonical, the stack empty, and there is no wait. -/
theorem resetMeetsTheInvariant : Obligations.ResetMeetsTheInvariant :=
  ⟨reset_mem_wf, by decide, fun _ hk => absurd hk (Nat.not_lt_zero _), fun hwait => nomatch hwait⟩

/-- What every committed step keeps holds after every run. -/
theorem run_induction (M : Host.Core) {P : M.State → Prop} (hstep : ∀ s t, P s → M.step s = .next t → P t) {n : Nat}
    {s t : M.State} (hs : P s) (h : M.run n s = .next t) : P t := by
  induction n generalizing s with
  | zero => injection h with h; exact h ▸ hs
  | succ n ih =>
    simp only [Host.Core.run] at h
    split at h
    · exact ih (hstep _ _ hs ‹_›) h
    · cases h
    · cases h

/-- What a load answers (70_reset_and_hazards.md R202, R203). -/
theorem load_eq_next {rom : List Byte} {p : InputPort} {s : State} :
    State.load rom p = .next s ↔
      rom.length ≤ 0xE00 ∧ s = { State.reset with mem := State.reset.mem.store 0x200 rom, port := p } := by
  unfold State.load
  split
  · exact iff_of_false (fun h => nomatch h) (fun h => absurd h.1 (Nat.not_le.mpr ‹_›))
  · exact ⟨fun h => ⟨Nat.not_lt.mp ‹_›, by injection h with h; exact h.symm⟩, fun h => congrArg _ h.2.symm⟩

theorem load_inv {rom : List Byte} {p : InputPort} {s : State} (h : State.load rom p = .next s) : s.Inv := by
  obtain ⟨hlen, rfl⟩ := load_eq_next.mp h
  obtain ⟨-, hpc, hstack, hwait⟩ := resetMeetsTheInvariant
  exact ⟨Memory.store_wf reset_mem_wf (Nat.add_le_add_left hlen 0x200), hpc, hstack, fun hw => nomatch hw⟩

/-! ### The key-wait (40_step_cycle.md R92, R93, R99) -/

/-- Settles O16: the word can be fetched, and the wait goes on. -/
theorem blockedStepWithoutKeyChangesNothing : Obligations.BlockedStepWithoutKeyChangesNothing :=
  fun _ hat hw hk => step_eq_next.mpr ⟨(hat hw).1, .inl ⟨hw, hk, rfl⟩⟩

theorem step_of_blocked_of_key {s : State} (hat : s.waitsAtKeyWait) (hw : s.waitKey = true) (hk : s.key ≠ 0) :
    step s = .next (s.resolveKeyWait s.key).dropInput :=
  step_eq_next.mpr ⟨(hat hw).1, .inr (.inl ⟨hw, hk, rfl⟩)⟩

/-- A blocked step at its `Fx0A` never raises (R99 (5)). -/
theorem step_of_blocked {s : State} (hat : s.waitsAtKeyWait) (hw : s.waitKey = true) : ∃ u, step s = .next u := by
  by_cases hk : s.key = 0
  · exact ⟨_, blockedStepWithoutKeyChangesNothing s hat hw hk⟩
  · exact ⟨_, step_of_blocked_of_key hat hw hk⟩

/-- Settles O18: with the flag and the port put back, the state left is `s` after a register write and `pc + 2`. -/
theorem blockedStepWithKeyEndsTheWait : Obligations.BlockedStepWithKeyEndsTheWait := by
  intro s hat hw hk
  refine ⟨_, step_of_blocked_of_key hat hw hk, ?_, rfl, rfl, s.frame_setReg_advance s.waitX (zextKey s.key)⟩
  rw [State.reg_dropInput, State.reg_resolveKeyWait, if_pos rfl, zextKey_toNat]

/-- Settles O17, by induction on the number of steps without a key. -/
theorem keyWaitFreezesUntilAKey : Obligations.KeyWaitFreezesUntilAKey := by
  intro n
  induction n with
  | zero =>
    intro s hat hw _
    refine ⟨rfl, fun hk => ?_⟩
    obtain ⟨t, ht, -, hended, -⟩ := blockedStepWithKeyEndsTheWait s hat hw hk
    exact ⟨t, core_run_succ ht 0, hended⟩
  | succ n ih =>
    intro s hat hw hkeys
    have hstep := blockedStepWithoutKeyChangesNothing s hat hw (hkeys 0 n.succ_pos)
    rw [core_run_succ hstep, core_run_succ hstep]
    exact ih s.dropInput hat hw fun k hk => hkeys (k + 1) (Nat.succ_lt_succ hk)

/-- Settles O23: the load meets the invariant and every step keeps it. -/
theorem reachableStatesMeetTheInvariant : Obligations.ReachableStatesMeetTheInvariant := by
  intro rom p n s t hload hrun
  have hinv : t.Inv := run_induction core (P := State.Inv) stepKeepsTheInvariant (load_inv hload) hrun
  have ⟨_, _, _, hat⟩ := hinv
  exact ⟨hinv, step_of_blocked hat⟩

end Sys2Proof.Machine
end

section
/-! PROOFS. The step and the conditions it raises (40_step_cycle.md R90 to R95, 60_exceptions.md). -/

namespace Sys2Proof.Machine

/-! ### Fetch and dispatch -/

/-- Settles O8: an instruction's answer, with the inputs used up, is the step's. -/
theorem stepRunsTheDecodedInstruction : Obligations.StepRunsTheDecodedInstruction := fun _ i hfetch hw hd =>
  ⟨fun u he => step_eq_next.mpr ⟨hfetch, .inr (.inr ⟨hw, i, u, hd, he, rfl⟩)⟩,
    fun _ he => step_eq_fault.mpr (.inr ⟨hfetch, hw, .inr ⟨i, hd, he⟩⟩)⟩

/-- Settles O9: the word is its two bytes, and the fetch comes before all else. -/
theorem fetchIsBigEndianAndGuarded : Obligations.FetchIsBigEndianAndGuarded :=
  ⟨fun s a => (wordOfBytes_toNat (s.mem.read a) (s.mem.read (a + 1))).trans (by rw [Nat.mul_comm]),
    fun _ _ => fetch_of_outside⟩

/-! ### The conditions of the instructions -/

/-- A meaning that raises `g` under `p` and else completes raises nothing else. -/
theorem eq_fault_iff_of_cases {r : Result} {p : Prop} {t : State} {g f : Fault}
    (h : (¬ p ∧ r = .next t) ∨ (p ∧ r = .fault g)) : r = .fault f ↔ p ∧ f = g := by
  rcases h with ⟨hp, rfl⟩ | ⟨hp, rfl⟩
  · simp [hp]
  · simp [hp, eq_comm]

theorem exec_call_eq_fault {nnn : Addr} {s : State} {f : Fault} :
    exec (.call nnn) s = .fault f ↔ s.sp.val = 16 ∧ f = .stackOverflow s.pc := by
  rcases callTo_cases (zextAddr nnn) s with ⟨h, e⟩ | ⟨h, e⟩
  · exact eq_fault_iff_of_cases (.inl ⟨h.ne, e⟩)
  · exact eq_fault_iff_of_cases (t := s) (.inr ⟨h, e⟩)

theorem exec_ret_eq_fault {s : State} {f : Fault} :
    exec .ret s = .fault f ↔ s.sp.val = 0 ∧ f = .stackUnderflow s.pc := by
  rcases popReturn_cases s with ⟨h, e⟩ | ⟨h, e⟩
  · exact eq_fault_iff_of_cases (.inl ⟨h.ne', e⟩)
  · exact eq_fault_iff_of_cases (t := s) (.inr ⟨h, e⟩)

theorem exec_drw_eq_fault {x y : Reg} {n : Nibble} {s : State} {f : Fault} :
    exec (.drw x y n) s = .fault f ↔ (0 < n.toNat ∧ 0xFFF < s.I.toNat + n.toNat - 1) ∧
      f = .addressOutOfRange (s.I.toNat + n.toNat - 1) := by
  rcases execDrw_cases x y n s with ⟨h, e⟩ | ⟨h0, h, e⟩
  · exact eq_fault_iff_of_cases (.inl ⟨by omega, e⟩)
  · exact eq_fault_iff_of_cases (t := s) (.inr ⟨by omega, e⟩)

theorem exec_ldB_eq_fault {x : Reg} {s : State} {f : Fault} :
    exec (.ldB x) s = .fault f ↔ 0xFFF < s.I.toNat + 2 ∧ f = .addressOutOfRange (s.I.toNat + 2) := by
  rcases execLdB_cases x s with ⟨h, e⟩ | ⟨h, e⟩
  · exact eq_fault_iff_of_cases (.inl ⟨by omega, e⟩)
  · exact eq_fault_iff_of_cases (t := s) (.inr ⟨by omega, e⟩)

theorem exec_stRegs_eq_fault {x : Reg} {s : State} {f : Fault} :
    exec (.stRegs x) s = .fault f ↔ 0xFFF < s.I.toNat + x.val ∧ f = .addressOutOfRange (s.I.toNat + x.val) := by
  rcases execStRegs_cases x s with ⟨h, e⟩ | ⟨h, e⟩
  · exact eq_fault_iff_of_cases (.inl ⟨by omega, e⟩)
  · exact eq_fault_iff_of_cases (t := s) (.inr ⟨by omega, e⟩)

theorem exec_ldRegs_eq_fault {x : Reg} {s : State} {f : Fault} :
    exec (.ldRegs x) s = .fault f ↔ 0xFFF < s.I.toNat + x.val ∧ f = .addressOutOfRange (s.I.toNat + x.val) := by
  rcases execLdRegs_cases x s with ⟨h, e⟩ | ⟨h, e⟩
  · exact eq_fault_iff_of_cases (.inl ⟨by omega, e⟩)
  · exact eq_fault_iff_of_cases (t := s) (.inr ⟨by omega, e⟩)

theorem exec_addI_eq_fault {x : Reg} {s : State} {f : Fault} :
    exec (.addI x) s = .fault f ↔ 0xFFFF < s.I.toNat + (s.reg x).toNat ∧
      f = .addressOutOfRange (s.I.toNat + (s.reg x).toNat) := by
  rcases execAddI_cases x s with ⟨h, e⟩ | ⟨h, e⟩
  · exact eq_fault_iff_of_cases (.inl ⟨by omega, e⟩)
  · exact eq_fault_iff_of_cases (t := s) (.inr ⟨by omega, e⟩)

/-- Settles O11: the seven instructions that can raise, one by one; each other one completes. -/
theorem instructionConditionsAreExactly : Obligations.InstructionConditionsAreExactly := by
  intro i s f
  cases i with
  | call nnn => simp [exec_call_eq_fault]
  | ret => simp [exec_ret_eq_fault]
  | drw x y n => simp [exec_drw_eq_fault, and_assoc]
  | ldB x => simp [exec_ldB_eq_fault]
  | stRegs x => simp [exec_stRegs_eq_fault]
  | ldRegs x => simp [exec_ldRegs_eq_fault]
  | addI x => simp [exec_addI_eq_fault]
  | _ => exact iff_of_false (fun h => nomatch h) (by simp)

theorem exec_ne_illegalInstruction (i : Instr) (s : State) (w : Word) : exec i s ≠ .fault (.illegalInstruction w) := by
  rw [ne_eq, instructionConditionsAreExactly]; simp

theorem exec_ne_romTooLarge (i : Instr) (s : State) (len : Nat) : exec i s ≠ .fault (.romTooLarge len) := by
  rw [ne_eq, instructionConditionsAreExactly]; simp

/-- An instruction that raises does so whatever the inputs: no condition of R170 speaks of them. -/
theorem exec_fault_of_port {i : Instr} {s : State} {f : Fault} (h : exec i s = .fault f) (p : InputPort) :
    exec i { s with port := p } = .fault f :=
  (instructionConditionsAreExactly i _ f).mpr ((instructionConditionsAreExactly i s f).mp h)

/-! ### The conditions of the step -/

theorem hostStep_of_fault {s : State} {f : Fault} (h : step s = .fault f) : hostStep s = (s.dropInput, some f) := by
  rw [hostStep, h]; rfl

/-- Settles O10: of the three ways a step can raise, the decoding alone raises this condition. -/
theorem illegalWordRaises : Obligations.IllegalWordRaises := by
  intro s w
  refine ⟨step_eq_fault.trans ?_, hostStep_of_fault⟩
  simp only [exec_ne_illegalInstruction, reduceCtorEq, Fault.illegalInstruction.injEq, and_false, exists_false, or_false,
    false_or]
  constructor
  · rintro ⟨hpc, hw, hd, rfl⟩; exact ⟨hpc, hw, rfl, hd⟩
  · rintro ⟨hpc, hw, rfl, hd⟩; exact ⟨hpc, hw, hd, rfl⟩

theorem step_fault_of_port {s : State} {f : Fault} (h : step s = .fault f) (p : InputPort) :
    step { s with port := p } = .fault f := by
  rcases step_eq_fault.mp h with hfetch | ⟨hpc, hw, hillegal | ⟨i, hd, he⟩⟩
  · exact step_eq_fault.mpr (.inl hfetch)
  · exact step_eq_fault.mpr (.inr ⟨hpc, hw, .inl hillegal⟩)
  · exact step_eq_fault.mpr (.inr ⟨hpc, hw, .inr ⟨i, hd, exec_fault_of_port he p⟩⟩)

/-- Settles O12. -/
theorem conditionsLeaveNoTraceAndRecur : Obligations.ConditionsLeaveNoTraceAndRecur := by
  intro s f h
  rw [hostStep_of_fault h]
  exact ⟨rfl, ⟨s.port.advance, rfl⟩, step_fault_of_port h⟩

/-! ### Reset and load (70_reset_and_hazards.md R200 to R203) -/

/-- Settles O14, item by item. -/
theorem resetStateIsAsListed : Obligations.ResetStateIsAsListed := by
  refine ⟨fun x => Vector.getElem_replicate x.isLt, rfl, rfl, rfl, fun k => Vector.getElem_replicate k.isLt, rfl, rfl,
    rfl, rfl, Framebuffer.cell_clear, rfl, fun a ha => ?_, fun a ha => ?_⟩
  · rw [reset_read, if_pos ha]
  · rw [reset_read, if_neg ha.not_gt]

/-- The word of no ROM is 0x0000, which is illegal (R203). -/
theorem step_reset (p : InputPort) : step { State.reset with port := p } = .fault (.illegalInstruction 0) := by
  have hword : ({ State.reset with port := p } : State).wordAt 0x200 = 0 := by
    have hzero (a : Nat) (ha : 80 ≤ a) : State.reset.mem.read a = 0 := by rw [reset_read, if_neg ha.not_gt]
    simp only [State.wordAt, hzero 0x200 (by decide), hzero (0x200 + 1) (by decide)]; rfl
  exact ((illegalWordRaises _ _).1).mpr ⟨(by decide : 0x200 + 1 ≤ 0xFFF), rfl, hword.symm, by decide⟩

theorem step_ne_romTooLarge (s : State) (len : Nat) : step s ≠ .fault (.romTooLarge len) := by
  rw [ne_eq, step_eq_fault]; simp [exec_ne_romTooLarge]

/-- Settles O13: the loaded memory is the reset memory with the ROM stored at 0x200. -/
theorem loadPlacesTheRom : Obligations.LoadPlacesTheRom := by
  refine ⟨fun rom p hlong => if_pos hlong, step_ne_romTooLarge, fun rom p hlen => ?_,
    fun p => ⟨_, load_eq_next.mpr ⟨Nat.zero_le _, rfl⟩, step_reset p⟩⟩
  refine ⟨_, load_eq_next.mpr ⟨hlen, rfl⟩, rfl, fun k hk => ?_, fun a ha => ?_, fun a ha hout => ?_⟩ <;> dsimp only
  · rw [Memory.read_store_add reset_mem_wf 0x200 hk, List.getElem?_eq_getElem hk]
  · rw [Memory.read_store_outside reset_mem_wf (.inl (by omega)), reset_read, if_pos ha]
  · rw [Memory.read_store_outside reset_mem_wf hout, reset_read, if_neg ha.not_gt]

/-! ### The timers (R94) -/

/-- Settles O15: the instruction runs on the ticked state, and `Fx15` and `Fx18` alone write a timer; a step that raises
leaves the state before the tick. -/
theorem timersTickBeforeTheInstruction : Obligations.TimersTickBeforeTheInstruction := by
  refine ⟨fun s t i h hw hd => ?_, fun s f h => by rw [hostStep_of_fault h]; exact ⟨rfl, rfl⟩⟩
  have ⟨_, hways⟩ := step_eq_next.mp h
  simp only [hw, hd, Bool.false_eq_true, false_and, false_or, true_and, Option.some.injEq] at hways
  obtain ⟨i', u, rfl, he, rfl⟩ := hways
  rcases exec_timers he with ⟨x, rfl, rfl⟩ | ⟨x, rfl, rfl⟩ | ⟨hdt, hst⟩
  · simp [countDown_toNat]
  · simp [countDown_toNat]
  · have hdt' : u.dt.toNat = s.dt.toNat - 1 := by rw [hdt, State.tickTimers_dt, countDown_toNat]
    have hst' : u.st.toNat = s.st.toNat - 1 := by rw [hst, State.tickTimers_st, countDown_toNat]
    refine ⟨fun _ => hdt', fun _ => hst', fun x hx => ?_, fun x hx => ?_, fun x hx => ?_⟩ <;> subst hx <;>
      injection he with he <;> subst he
    · simp [countDown_toNat]
    · simp
    · simp

end Sys2Proof.Machine
end

section
/-! PROOFS. The random byte and the ALU family (42_immediate_random.md, 43_alu.md). -/

namespace Sys2Proof.Machine

/-! ### `Cxnn` -/

/-- `Cxnn` is one register write, of the byte the port presents. -/
theorem rnd_writesRegister (x : Reg) (nn : Byte) (s : State) : WritesRegister (.rnd x nn) s x (s.rnd &&& nn) :=
  writesRegister_of_fallThrough rfl

/-- Settles O41: a port that lists the byte first presents it. -/
theorem rndMasksTheRandomByte : Obligations.RndMasksTheRandomByte := fun x nn s =>
  ⟨encodeRegImm_toNat_digits 0xC x nn, rnd_writesRegister x nn s,
    fun b => ⟨⟨[⟨0, b⟩], 0⟩, rnd_writesRegister x nn { s with port := ⟨[⟨0, b⟩], 0⟩ }⟩⟩

/-! ### `8xy0` to `8xy3` -/

/-- Format `REG_REG` with the sub-opcode among the fixed digits, as the statements write it (30_encoding.md R71). -/
theorem encodeRegReg_toNat_subOpcode (op : Nibble) (x y : Reg) (n : Nibble) :
    (encodeRegReg op x y n).toNat = 0x1000 * op.toNat + n.toNat + 0x100 * x.val + 0x10 * y.val := by
  rw [encodeRegReg_toNat]; omega

/-- A register write whose byte has the bits `bits`. -/
theorem WritesRegister.bits {i : Instr} {s : State} {x : Reg} {b : Byte} {bits : Nat → Bool}
    (h : WritesRegister i s x b) (hbits : ∀ k, b.getLsbD k = bits k) :
    ∃ t, exec i s = .next t ∧ t.pc = s.pc + 2 ∧ Frame s t [x] ∧ ∀ k, (t.reg x).getLsbD k = bits k := by
  obtain ⟨t, ht, hreg, hpc, hframe⟩ := h
  exact ⟨t, ht, hpc, hframe, fun k => by rw [hreg, hbits]⟩

/-- Settles O42: each of the four is one register write. -/
theorem copyAndBitwiseOperations : Obligations.CopyAndBitwiseOperations := fun x y _ =>
  ⟨encodeRegReg_toNat_subOpcode 8 x y 0, encodeRegReg_toNat_subOpcode 8 x y 1, encodeRegReg_toNat_subOpcode 8 x y 2,
    encodeRegReg_toNat_subOpcode 8 x y 3, writesRegister_of_fallThrough rfl,
    (writesRegister_of_fallThrough rfl).bits fun _ => BitVec.getLsbD_or,
    (writesRegister_of_fallThrough rfl).bits fun _ => BitVec.getLsbD_and,
    (writesRegister_of_fallThrough rfl).bits fun _ => BitVec.getLsbD_xor⟩

/-! ### The flags as numbers (R130 to R135) -/

theorem flagByte_toNat (b : Bool) : (flagByte b).toNat = if b then 1 else 0 := by cases b <;> rfl

theorem carryFlag_toNat (a b : Byte) : (carryFlag a b).toNat = if 255 < a.toNat + b.toNat then 1 else 0 := by
  simp [carryFlag, flagByte_toNat]

theorem notBorrowFlag_toNat (a b : Byte) : (notBorrowFlag a b).toNat = if a.toNat < b.toNat then 0 else 1 := by
  rw [notBorrowFlag, flagByte_toNat]
  by_cases h : a.toNat < b.toNat <;> simp [h]

theorem lowBitFlag_toNat (a : Byte) : (lowBitFlag a).toNat = a.toNat % 2 := by
  rw [lowBitFlag, BitVec.toNat_and]; exact Nat.and_one_is_mod _

theorem highBitFlag_toNat (a : Byte) : (highBitFlag a).toNat = a.toNat / 128 := by
  have := a.isLt
  rw [highBitFlag, BitVec.toNat_and, BitVec.toNat_ushiftRight, Nat.shiftRight_eq_div_pow]
  refine (Nat.and_one_is_mod _).trans ?_
  omega

/-! ### `8xy4`, `8xy5`, `8xy7` -/

/-- Two register writes followed by the fall-through keep every other register and every other item. -/
theorem State.frame_setReg_setReg_advance (s : State) (x y : Reg) (b c : Byte) :
    Frame s ((s.setReg x b).setReg y c).advance [x, y] where
  regs r hr := by
    have ⟨hx, hy⟩ : r ≠ x ∧ r ≠ y := by simpa using hr
    rw [State.reg_advance, State.reg_setReg, if_neg hy, State.reg_setReg, if_neg hx]
  I := rfl
  sp := rfl
  stack := rfl
  dt := rfl
  st := rfl
  waitKey := rfl
  waitX := rfl
  mem _ := rfl
  fb := rfl
  port := rfl

/-- Result first, then flag: the flag is what `VF` holds, the result what any other destination holds (R125 (a)). -/
theorem exec_of_resultThenFlag {i : Instr} {s : State} {x : Reg} {result flag : Byte}
    (he : exec i s = writeResultThenFlag x result flag s) :
    ∃ t, exec i s = .next t ∧ (x ≠ 15 → t.reg x = result) ∧ t.reg 15 = flag ∧ t.pc = s.pc + 2 ∧ Frame s t [x, 15] := by
  refine ⟨_, he, fun hx => ?_, ?_, rfl, s.frame_setReg_setReg_advance x 15 result flag⟩
  · rw [State.reg_advance, State.reg_setReg, if_neg hx, State.reg_setReg, if_pos rfl]
  · rw [State.reg_advance, State.reg_setReg, if_pos rfl]

/-- Settles O43: the sum of two bytes and its carry. -/
theorem addRegWrapsAndSetsCarry : Obligations.AddRegWrapsAndSetsCarry := by
  intro x y s
  obtain ⟨t, ht, hresult, hflag, hpc, hframe⟩ := exec_of_resultThenFlag (i := .addReg x y) (s := s) rfl
  exact ⟨encodeRegReg_toNat_subOpcode 8 x y 4, t, ht, fun hx => by rw [hresult hx, BitVec.toNat_add],
    by rw [hflag, carryFlag_toNat], hpc, hframe⟩

/-- A difference of bytes as the statement writes it. -/
theorem byte_sub_toNat (a b : Byte) : (a - b).toNat = (a.toNat + 256 - b.toNat) % 256 := by
  rw [BitVec.toNat_sub]; omega

/-- Settles O44: the two differences and their borrows. -/
theorem subtractionsWrapAndSetNotBorrow : Obligations.SubtractionsWrapAndSetNotBorrow := by
  intro x y s
  refine ⟨encodeRegReg_toNat_subOpcode 8 x y 5, encodeRegReg_toNat_subOpcode 8 x y 7, ?_, ?_⟩
  · obtain ⟨t, ht, hresult, hflag, hpc, hframe⟩ := exec_of_resultThenFlag (i := .sub x y) (s := s) rfl
    exact ⟨t, ht, fun hx => by rw [hresult hx, byte_sub_toNat], by rw [hflag, notBorrowFlag_toNat], hpc, hframe⟩
  · obtain ⟨t, ht, hresult, hflag, hpc, hframe⟩ := exec_of_resultThenFlag (i := .subn x y) (s := s) rfl
    exact ⟨t, ht, fun hx => by rw [hresult hx, byte_sub_toNat], by rw [hflag, notBorrowFlag_toNat], hpc, hframe⟩

/-! ### `8xy6`, `8xyE` -/

/-- Flag first, then the register read again and shifted: a destination other than `VF` is shifted as it was, `VF` as the
destination is the flag shifted (R125 (b)). -/
theorem exec_of_flagThenShift {i : Instr} {s : State} {x : Reg} {flag shift : Byte → Byte}
    (he : exec i s = flagThenShift x flag shift s) :
    ∃ t, exec i s = .next t ∧ (x ≠ 15 → t.reg x = shift (s.reg x) ∧ t.reg 15 = flag (s.reg x)) ∧
      (x = 15 → t.reg 15 = shift (flag (s.reg 15))) ∧ t.pc = s.pc + 2 ∧ Frame s t [x, 15] := by
  refine ⟨_, he, fun hx => ⟨?_, ?_⟩, ?_, rfl, ?_⟩
  · simp [hx]
  · simp [hx.symm]
  · rintro rfl; simp
  · have hframe := s.frame_setReg_setReg_advance 15 x (flag (s.reg x)) (shift ((s.setReg 15 (flag (s.reg x))).reg x))
    exact { hframe with regs := fun r hr => hframe.regs r (by simpa [and_comm] using hr) }

theorem byte_shiftRight_toNat (a : Byte) : (a >>> 1).toNat = a.toNat / 2 := by
  rw [BitVec.toNat_ushiftRight, Nat.shiftRight_eq_div_pow, Nat.pow_one]

theorem byte_shiftLeft_toNat (a : Byte) : (a <<< 1).toNat = a.toNat * 2 % 256 := by
  rw [BitVec.toNat_shiftLeft, Nat.shiftLeft_eq, Nat.pow_one]

/-- Settles O45. A flag shifted right is 0; shifted left it is twice the bit shifted out. -/
theorem shiftsByOneInPlace : Obligations.ShiftsByOneInPlace := by
  intro x y s
  refine ⟨encodeRegReg_toNat_subOpcode 8 x y 6, encodeRegReg_toNat_subOpcode 8 x y 0xE, ?_, ?_⟩
  · obtain ⟨t, ht, hother, hself, hpc, hframe⟩ :=
      exec_of_flagThenShift (i := .shr x y) (s := s) (x := x) (flag := lowBitFlag) (shift := (· >>> 1)) rfl
    refine ⟨t, ht, fun hx => ?_, fun hx => BitVec.eq_of_toNat_eq ?_, hpc, hframe⟩
    · obtain ⟨hreg, hflag⟩ := hother hx
      exact ⟨by rw [hreg, byte_shiftRight_toNat], by rw [hflag, lowBitFlag_toNat]⟩
    · rw [hself hx, byte_shiftRight_toNat, lowBitFlag_toNat]
      exact Nat.div_eq_of_lt (Nat.mod_lt _ (by decide))
  · obtain ⟨t, ht, hother, hself, hpc, hframe⟩ :=
      exec_of_flagThenShift (i := .shl x y) (s := s) (x := x) (flag := highBitFlag) (shift := (· <<< 1)) rfl
    refine ⟨t, ht, fun hx => ?_, fun hx => ?_, hpc, hframe⟩
    · obtain ⟨hreg, hflag⟩ := hother hx
      exact ⟨by rw [hreg, byte_shiftLeft_toNat], by rw [hflag, highBitFlag_toNat]⟩
    · have := (s.reg 15).isLt
      rw [hself hx, byte_shiftLeft_toNat, highBitFlag_toNat]
      omega

end Sys2Proof.Machine
end

section
/-! PROOFS. The index register and memory: `Fx1E`, `Fx29`, `Fx55` and `Fx65` (44_index_memory.md). -/

namespace Sys2Proof.Machine

/-- Settles O47, by the two answers of the addition: the sum fits 16 bits, or it is the `info` of the condition. -/
theorem addIAddsOrRaises : Obligations.AddIAddsOrRaises := by
  intro x s
  refine ⟨encodeRegImm_toNat_subOpcode 0xF x 0x1E, ?_⟩
  rcases execAddI_cases x s with ⟨hfits, he⟩ | ⟨hexceeds, he⟩
  · exact ⟨fun _ => ⟨_, he, Nat.mod_eq_of_lt (Nat.lt_succ_of_le hfits), rfl, s.frame_setPc _⟩,
      fun hexceeds => absurd hfits hexceeds.not_ge⟩
  · exact ⟨fun hfits => absurd hfits hexceeds.not_ge, fun _ => he⟩

/-- Settles O48: five times a byte fits 16 bits. -/
theorem ldFPointsAtTheGlyph : Obligations.LdFPointsAtTheGlyph := by
  intro x s
  have hI : (zextByte (s.reg x) * 5).toNat = 5 * (s.reg x).toNat := by
    have := (s.reg x).isLt
    simp only [BitVec.toNat_mul, zextByte_toNat, BitVec.ofNat_eq_ofNat, BitVec.toNat_ofNat]; omega
  refine ⟨encodeRegImm_toNat_subOpcode 0xF x 0x29, _, rfl, hI, rfl, s.frame_setPc _, fun hdigit => ?_⟩
  rw [show State.I _ = zextByte (s.reg x) * 5 from rfl, hI]; omega

/-- The stored registers read back: `v[k]` at the `k`-th place (R144). -/
theorem Memory.read_store_regs {m : Memory} (h : m.wf) (a : Nat) {x k : Reg} (hk : k ≤ x) (f : Reg → Byte) :
    (m.store a ((regsUpTo x).map f)).read (a + k.val) = f k := by
  rw [Memory.read_store a _ _ h.1, if_pos (Nat.le_add_right a k.val), Nat.add_sub_cancel_left, regsUpTo_getD, if_pos hk]

/-- Settles O50, by the two answers of the bounds check. -/
theorem stRegsStoresTheRegisters : Obligations.StRegsStoresTheRegisters := by
  intro x s hwf
  refine ⟨encodeRegImm_toNat_subOpcode 0xF x 0x55, ?_⟩
  rcases execStRegs_cases x s with ⟨hfits, he⟩ | ⟨hexceeds, he⟩
  · refine ⟨fun _ => ⟨_, he, fun k hk => Memory.read_store_regs hwf s.I.toNat hk s.reg, fun a ha => ?_, rfl,
      s.frame_setPc _⟩, fun hbeyond => absurd hbeyond (by omega)⟩
    exact Memory.read_store_outside hwf (by rw [List.length_map, regsUpTo_length]; omega)
  · exact ⟨fun hinside => absurd hinside (by omega), fun _ => he⟩

/-- Settles O51, by the two answers of the bounds check. -/
theorem ldRegsLoadsTheRegisters : Obligations.LdRegsLoadsTheRegisters := by
  intro x s
  refine ⟨encodeRegImm_toNat_subOpcode 0xF x 0x65, ?_⟩
  rcases execLdRegs_cases x s with ⟨hfits, he⟩ | ⟨hexceeds, he⟩
  · refine ⟨fun _ => ⟨_, he, fun k hk => ?_, fun k hk => ?_, ?_, ?_⟩, fun hbeyond => absurd hbeyond (by omega)⟩
    · rw [State.reg_advance, loadRegs_reg, if_pos ((mem_regsUpTo x k).mpr hk)]
    · rw [State.reg_advance, loadRegs_reg, if_neg (mt (mem_regsUpTo x k).mp hk.not_ge)]
    · rw [loadRegs_fields]; rfl
    · rw [loadRegs_fields]; exact s.frame_setPc _
  · exact ⟨fun hinside => absurd hinside (by omega), fun _ => he⟩

end Sys2Proof.Machine
end

section
/-! PROOFS. Keys and timer writes (46_key_timer.md). -/

namespace Sys2Proof.Machine

/-- Settles O56: the two instructions are skips on the comparison of the widened key code. -/
theorem keySkipsCompareTheKeyCode : Obligations.KeySkipsCompareTheKeyCode := fun x s =>
  ⟨⟨encodeRegImm_toNat_subOpcode 0xE x 0x9E,
      skipsWhen_of_skipIf rfl (beq_iff_eq.trans (zextKey_eq_iff s.key (s.reg x)))⟩,
    ⟨encodeRegImm_toNat_subOpcode 0xE x 0xA1,
      skipsWhen_of_skipIf rfl (bne_iff_ne.trans (zextKey_eq_iff s.key (s.reg x)).not)⟩⟩

/-- Settles O58: with the wait's two items put back, the state is the first one, `pc` included. -/
theorem ldVxKEntersTheWait : Obligations.LdVxKEntersTheWait := fun x s =>
  ⟨encodeRegImm_toNat_subOpcode 0xF x 0x0A, _, rfl, rfl, rfl, rfl, s.frame_setPc s.pc⟩

/-- Settles O59: with the written timer put back, the state is the first one with `pc` advanced. -/
theorem timerWrites : Obligations.TimerWrites := by
  intro x s
  refine ⟨encodeRegImm_toNat_subOpcode 0xF x 0x15, encodeRegImm_toNat_subOpcode 0xF x 0x18,
    ⟨_, rfl, rfl, rfl, s.frame_setPc _⟩, ⟨_, rfl, rfl, ?_, rfl, s.frame_setPc _⟩⟩
  exact decide_eq_true_iff.trans (Nat.pos_iff_ne_zero.trans (BitVec.toNat_eq (y := 0)).not.symm)

end Sys2Proof.Machine
end

section
/-! PROOFS. What each item of the state can be changed by (10_state.md, 20_memory.md R58, R59). -/

namespace Sys2Proof.Machine

/-! ### An item that only instructions change -/

/-- An item that the timer tick, the end of a key-wait and the port leave alone is changed by a step only through the
instruction that step executes. -/
theorem step_changes {α : Type} {item : State → α} {s t : State} (htick : item s.tickTimers = item s)
    (hresolve : ∀ k, item (s.resolveKeyWait k).dropInput = item s) (hdrop : ∀ u : State, item u.dropInput = item u)
    (h : step s = .next t) (hne : item t ≠ item s) :
    s.waitKey = false ∧ ∃ i u, decodeWord (s.wordAt s.pc.toNat) = some i ∧ exec i s.tickTimers = .next u ∧
      t = u.dropInput ∧ item u ≠ item s.tickTimers := by
  obtain ⟨-, ⟨-, -, rfl⟩ | ⟨-, -, rfl⟩ | ⟨hw, i, u, hd, he, rfl⟩⟩ := step_eq_next.mp h
  · exact absurd (hdrop s) hne
  · exact absurd (hresolve s.key) hne
  · exact ⟨hw, i, u, hd, he, rfl, by rwa [hdrop, ← htick] at hne⟩

/-! ### Memory -/

/-- A byte that a store changes lies in its range. -/
theorem Memory.mem_range_of_read_store_ne {m : Memory} (h : m.wf) {a c : Nat} {bs : List Byte}
    (hne : (m.store a bs).read c ≠ m.read c) : a ≤ c ∧ c < a + bs.length := by
  by_contra hout
  exact hne (Memory.read_store_outside h (by omega))

/-- Settles O24: of the instructions only the two stores touch memory, and those in their range. -/
theorem onlyStoresChangeMemory : Obligations.OnlyStoresChangeMemory := by
  intro s t hwf h a hne
  obtain ⟨hw, i, u, hd, he, -, hne⟩ :=
    step_changes (item := fun s => s.mem.read a) rfl (fun _ => rfl) (fun _ => rfl) h hne
  refine ⟨hw, ?_⟩
  rcases exec_mem he with ⟨x, rfl | rfl⟩ | hkeep
  · obtain ⟨-, rfl⟩ := exec_ldB_next he
    obtain ⟨hlow, hhigh⟩ := Memory.mem_range_of_read_store_ne hwf hne
    exact ⟨x, .inl ⟨hd, hlow, Nat.le_of_lt_succ hhigh⟩⟩
  · obtain ⟨-, rfl⟩ := exec_stRegs_next he
    obtain ⟨hlow, hhigh⟩ := Memory.mem_range_of_read_store_ne hwf hne
    rw [List.length_map, regsUpTo_length] at hhigh
    exact ⟨x, .inr ⟨hd, hlow, Nat.le_of_lt_succ hhigh⟩⟩
  · exact absurd (congrArg (Memory.read · a) hkeep) hne

/-! ### Framebuffer, `I` and `wait_x` -/

/-- Only `00E0` and `Dxyn` touch the framebuffer. -/
theorem exec_fb {i : Instr} {s t : State} (h : exec i s = .next t) :
    (i = .cls ∨ ∃ x y n, i = .drw x y n) ∨ t.fb = s.fb := by
  cases i with
  | cls => exact .inl (.inl rfl)
  | drw x y n => exact .inl (.inr ⟨x, y, n, rfl⟩)
  | call nnn => obtain ⟨-, rfl⟩ := exec_call_next h; exact .inr rfl
  | ret => obtain ⟨-, rfl⟩ := exec_ret_next h; exact .inr rfl
  | addI x => obtain ⟨-, rfl⟩ := exec_addI_next h; exact .inr rfl
  | ldB x => obtain ⟨-, rfl⟩ := exec_ldB_next h; exact .inr rfl
  | stRegs x => obtain ⟨-, rfl⟩ := exec_stRegs_next h; exact .inr rfl
  | ldRegs x => obtain ⟨-, rfl⟩ := exec_ldRegs_next h; exact .inr rfl
  | _ => injection h with h; subst h; exact .inr rfl

/-- Only `Annn`, `Fx1E` and `Fx29` touch `I`. -/
theorem exec_I {i : Instr} {s t : State} (h : exec i s = .next t) :
    ((∃ nnn, i = .ldI nnn) ∨ ∃ x, i = .addI x ∨ i = .ldF x) ∨ t.I = s.I := by
  cases i with
  | ldI nnn => exact .inl (.inl ⟨nnn, rfl⟩)
  | addI x => exact .inl (.inr ⟨x, .inl rfl⟩)
  | ldF x => exact .inl (.inr ⟨x, .inr rfl⟩)
  | drw x y n => obtain ⟨-, rfl⟩ := exec_drw_next h; exact .inr rfl
  | call nnn => obtain ⟨-, rfl⟩ := exec_call_next h; exact .inr rfl
  | ret => obtain ⟨-, rfl⟩ := exec_ret_next h; exact .inr rfl
  | ldB x => obtain ⟨-, rfl⟩ := exec_ldB_next h; exact .inr rfl
  | stRegs x => obtain ⟨-, rfl⟩ := exec_stRegs_next h; exact .inr rfl
  | ldRegs x => obtain ⟨-, rfl⟩ := exec_ldRegs_next h; exact .inr rfl
  | _ => injection h with h; subst h; exact .inr rfl

/-- Settles O25, item by item. -/
theorem writersOfFramebufferIndexAndPendingRegister : Obligations.WritersOfFramebufferIndexAndPendingRegister := by
  intro s t h
  refine ⟨fun hne => ?fb, fun hne => ?index, fun hne => ?pending⟩
  case fb =>
    obtain ⟨-, i, u, hd, he, -, hne⟩ := step_changes (item := State.fb) rfl (fun _ => rfl) (fun _ => rfl) h hne
    exact ⟨i, hd, (exec_fb he).resolve_right hne⟩
  case index =>
    obtain ⟨-, i, u, hd, he, -, hne⟩ := step_changes (item := State.I) rfl (fun _ => rfl) (fun _ => rfl) h hne
    exact ⟨i, hd, (exec_I he).resolve_right hne⟩
  case pending =>
    obtain ⟨-, i, u, hd, he, rfl, hne⟩ := step_changes (item := State.waitX) rfl (fun _ => rfl) (fun _ => rfl) h hne
    rcases exec_wait he with ⟨x, rfl, rfl⟩ | ⟨-, -, hkeep⟩
    · exact hd
    · exact absurd hkeep hne

/-! ### The call stack -/

/-- Settles O26: a call writes the entry at `sp` and counts it, a return discounts one. -/
theorem onlyCallAndReturnTouchTheStack : Obligations.OnlyCallAndReturnTouchTheStack := by
  intro s t h
  refine ⟨fun k hne => ?entry, fun hne => ?pointer⟩
  case entry =>
    obtain ⟨-, i, u, hd, he, rfl, hne⟩ :=
      step_changes (item := fun s => s.stack[k]) rfl (fun _ => rfl) (fun _ => rfl) h hne
    rcases exec_stack he with ⟨nnn, rfl⟩ | rfl | ⟨hkeep, -⟩
    · obtain ⟨hroom, rfl⟩ := exec_call_next he
      by_cases hk : s.sp.val = k.val
      · exact ⟨⟨nnn, hd⟩, hk.symm, by simp [← hk]⟩
      · exact absurd (Vector.getElem_set_ne hroom k.isLt hk) hne
    · obtain ⟨_, rfl⟩ := exec_ret_next he
      exact absurd rfl hne
    · exact absurd (congrArg (·[k]) hkeep) hne
  case pointer =>
    obtain ⟨-, i, u, hd, he, rfl, hne⟩ := step_changes (item := State.sp) rfl (fun _ => rfl) (fun _ => rfl) h hne
    rcases exec_stack he with ⟨nnn, rfl⟩ | rfl | ⟨-, hkeep⟩
    · obtain ⟨-, rfl⟩ := exec_call_next he
      exact .inl ⟨⟨nnn, hd⟩, rfl⟩
    · obtain ⟨hpos, rfl⟩ := exec_ret_next he
      exact .inr ⟨hd, (Nat.sub_add_cancel hpos).symm⟩
    · exact absurd hkeep hne

/-- Settles O36: the pushed entry stands below the `sp` the call left. -/
theorem returnResumesAfterTheCall : Obligations.ReturnResumesAfterTheCall := by
  intro nnn s t r h hstack hsp
  obtain ⟨hroom, rfl⟩ := exec_call_next h
  exact exec_ret_of_top (congrArg Fin.val hsp) (by rw [hstack]; exact Vector.getElem?_set_self hroom)

/-! ### The flag register (R22) -/

theorem eq_zero_or_one_of_toNat_lt {b : Byte} (h : b.toNat < 2) : b = 0 ∨ b = 1 := by
  have : b.toNat = 0 ∨ b.toNat = 1 := by omega
  exact this.imp BitVec.eq_of_toNat_eq BitVec.eq_of_toNat_eq

theorem flagByte_eq_zero_or_one (b : Bool) : flagByte b = 0 ∨ flagByte b = 1 := by
  cases b with
  | false => exact .inl rfl
  | true => exact .inr rfl

theorem lowBitFlag_eq_zero_or_one (a : Byte) : lowBitFlag a = 0 ∨ lowBitFlag a = 1 :=
  eq_zero_or_one_of_toNat_lt (by rw [lowBitFlag_toNat]; omega)

theorem highBitFlag_eq_zero_or_one (a : Byte) : highBitFlag a = 0 ∨ highBitFlag a = 1 :=
  eq_zero_or_one_of_toNat_lt (by have := a.isLt; rw [highBitFlag_toNat]; omega)

/-- A register write that changes `VF` names it. -/
theorem eq_flagReg_of_writesRegister {i : Instr} {s t : State} {x : Reg} {b : Byte} (hwrites : WritesRegister i s x b)
    (h : exec i s = .next t) (hne : t.reg 15 ≠ s.reg 15) : x = 15 := by
  obtain ⟨t', ht', -, -, hframe⟩ := hwrites
  obtain rfl : t = t' := by injection h.symm.trans ht'
  by_contra hx
  exact hne (hframe.regs 15 (mt List.mem_singleton.mp (Ne.symm hx)))

/-- A load of `v[0]` to `v[x]` that changes `VF` goes up to it. -/
theorem eq_flagReg_of_ldRegs {x : Reg} {s t : State} (h : exec (.ldRegs x) s = .next t)
    (hne : t.reg 15 ≠ s.reg 15) : x = 15 := by
  by_contra hx
  have hlt : x < 15 := lt_of_le_of_ne (Fin.le_last x) hx
  obtain ⟨-, rfl⟩ := exec_ldRegs_next h
  refine hne ((loadRegs_reg s (regsUpTo x) 15).trans (if_neg ?_))
  rw [mem_regsUpTo]; exact hlt.not_ge

theorem flag_of_resultThenFlag {x : Reg} {result flag : Byte} {s t : State}
    (h : writeResultThenFlag x result flag s = .next t) : t.reg 15 = flag := by
  injection h with h; subst h; simp

theorem flag_of_flagThenShift {x : Reg} {flag shift : Byte → Byte} {s t : State} (hx : x ≠ 15)
    (h : flagThenShift x flag shift s = .next t) : t.reg 15 = flag (s.reg x) := by
  injection h with h; subst h; simp [hx.symm]

/-- Settles O27: an instruction either writes the flag, or one register, or `v[0]` to `v[x]`, or no register. -/
theorem writersOfTheFlagRegister : Obligations.WritersOfTheFlagRegister := by
  intro i s t h
  refine ⟨fun hne => ?writer, fun x y hx hi => ?bit⟩
  case writer =>
    cases i with
    | addReg x y | sub x y | subn x y | shr x y | shl x y | drw x y n => exact .inl ⟨x, y, by simp⟩
    | ldImm x nn => simp [eq_flagReg_of_writesRegister (ldImm_writesRegister x nn s) h hne]
    | addImm x nn => simp [eq_flagReg_of_writesRegister (addImm_writesRegister x nn s) h hne]
    | rnd x nn => simp [eq_flagReg_of_writesRegister (rnd_writesRegister x nn s) h hne]
    | ldReg x y | or x y | and x y | xor x y =>
      simp [eq_flagReg_of_writesRegister (writesRegister_of_fallThrough rfl) h hne]
    | ldVxDt x => simp [eq_flagReg_of_writesRegister (ldVxDt_writesRegister x s) h hne]
    | ldRegs x => simp [eq_flagReg_of_ldRegs h hne]
    | call nnn => obtain ⟨_, rfl⟩ := exec_call_next h; exact absurd rfl hne
    | ret => obtain ⟨_, rfl⟩ := exec_ret_next h; exact absurd rfl hne
    | addI x => obtain ⟨-, rfl⟩ := exec_addI_next h; exact absurd rfl hne
    | ldB x => obtain ⟨-, rfl⟩ := exec_ldB_next h; exact absurd rfl hne
    | stRegs x => obtain ⟨-, rfl⟩ := exec_stRegs_next h; exact absurd rfl hne
    | _ => injection h with h; subst h; exact absurd rfl hne
  case bit =>
    rcases hi with rfl | rfl | rfl | rfl | rfl | ⟨n, rfl⟩
    · rw [flag_of_resultThenFlag h]; exact flagByte_eq_zero_or_one _
    · rw [flag_of_resultThenFlag h]; exact flagByte_eq_zero_or_one _
    · rw [flag_of_resultThenFlag h]; exact flagByte_eq_zero_or_one _
    · rw [flag_of_flagThenShift (flag := lowBitFlag) (shift := (· >>> 1)) hx h]; exact lowBitFlag_eq_zero_or_one _
    · rw [flag_of_flagThenShift (flag := highBitFlag) (shift := (· <<< 1)) hx h]; exact highBitFlag_eq_zero_or_one _
    · obtain ⟨-, rfl⟩ := exec_drw_next h
      simpa using flagByte_eq_zero_or_one _

/-! ### The inputs (R97) -/

/-- A load of registers looks at no input and keeps the port. -/
theorem loadRegs_of_port (s : State) (p : InputPort) (ks : List Reg) :
    loadRegs { s with port := p } ks = { loadRegs s ks with port := p } := by
  induction ks generalizing s with
  | nil => rfl
  | cons k ks ih => exact ih (s.setReg k (s.mem.read (s.effective k.val)))

/-- Settles O28. The readers are given the same input; every other instruction answers, or meets its bound, by what it
reads of the state. -/
theorem inputsReachOnlyTheirReaders : Obligations.InputsReachOnlyTheirReaders := by
  intro i s p hkey hrnd
  refine ⟨fun t h => ?_, fun f h => exec_fault_of_port h p⟩
  cases i with
  | skp x =>
    have hk : State.key { s with port := p } = s.key := hkey.resolve_left fun hno => (hno x).1 rfl
    injection h with h; subst h
    exact congrArg (fun k => skipIf (zextKey k == s.reg x) { s with port := p }) hk
  | sknp x =>
    have hk : State.key { s with port := p } = s.key := hkey.resolve_left fun hno => (hno x).2 rfl
    injection h with h; subst h
    exact congrArg (fun k => skipIf (zextKey k != s.reg x) { s with port := p }) hk
  | rnd x nn =>
    have hr : State.rnd { s with port := p } = s.rnd := hrnd.resolve_left fun hno => hno x nn rfl
    injection h with h; subst h
    exact congrArg (fun b => fallThrough (({ s with port := p } : State).setReg x (b &&& nn))) hr
  | call nnn => obtain ⟨hroom, rfl⟩ := exec_call_next h; exact dif_pos hroom
  | ret => obtain ⟨hpos, rfl⟩ := exec_ret_next h; exact dif_pos hpos
  | drw x y n => obtain ⟨hfits, rfl⟩ := exec_drw_next h; exact guardRange_of_fits hfits
  | addI x => obtain ⟨hfits, rfl⟩ := exec_addI_next h; exact if_neg hfits.not_gt
  | ldB x => obtain ⟨hfits, rfl⟩ := exec_ldB_next h; exact guardRange_of_fits (.inr hfits)
  | stRegs x => obtain ⟨hfits, rfl⟩ := exec_stRegs_next h; exact guardRange_of_fits (.inr hfits)
  | ldRegs x =>
    obtain ⟨hfits, rfl⟩ := exec_ldRegs_next h
    have he : execLdRegs x { s with port := p } = fallThrough (loadRegs { s with port := p } (regsUpTo x)) :=
      guardRange_of_fits (.inr hfits)
    refine he.trans ?_
    rw [loadRegs_of_port, loadRegs_fields]; rfl
  | _ => injection h with h; subst h; rfl

/-! ### The canonical form of memory -/

/-- A byte other than the unlisted one is listed. -/
theorem Memory.mem_of_read_ne {m : Memory} {a : Nat} (h : m.read a ≠ unlisted a) : (a, m.read a) ∈ m := by
  induction m with
  | nil => exact absurd rfl h
  | cons c m ih =>
    rw [Memory.read_cons] at h ⊢
    split at h
    · rw [if_pos ‹_›]; simp [← ‹c.1 = a›]
    · rw [if_neg ‹_›]; exact List.mem_cons_of_mem _ (ih h)

/-- A listed byte is what its address reads as. -/
theorem Memory.read_of_mem {m : Memory} (h : m.Pairwise (fun c d => c.1 < d.1)) {c : Host.Cell} (hc : c ∈ m) :
    m.read c.1 = c.2 := by
  induction m with
  | nil => cases hc
  | cons d m ih =>
    obtain ⟨hd, hm⟩ := List.pairwise_cons.mp h
    rcases List.mem_cons.mp hc with rfl | hc
    · exact if_pos rfl
    · exact (if_neg (hd c hc).ne).trans (ih hm hc)

/-- A canonical memory lists exactly the bytes that read as something other than unlisted. -/
theorem Memory.mem_iff_read {m : Memory} (h : m.wf) (c : Host.Cell) : c ∈ m ↔ m.read c.1 = c.2 ∧ c.2 ≠ unlisted c.1 := by
  obtain ⟨hsorted, hcells⟩ := h
  refine ⟨fun hc => ⟨Memory.read_of_mem hsorted hc, (hcells c hc).2⟩, fun ⟨hread, hne⟩ => ?_⟩
  have hmem := Memory.mem_of_read_ne (hread ▸ hne)
  rwa [hread] at hmem

/-- Settles O29: memories that read alike list the same bytes, in the one strictly rising order. -/
theorem canonicalMemoryIsUnique : Obligations.CanonicalMemoryIsUnique := by
  intro m m' h h' hread
  have hnodup {m : Memory} (h : m.wf) : m.Nodup := h.1.imp fun hlt heq => hlt.ne (congrArg Prod.fst heq)
  have hperm : m.Perm m' := (List.perm_ext_iff_of_nodup (hnodup h) (hnodup h')).mpr fun c => by
    rw [Memory.mem_iff_read h, Memory.mem_iff_read h', hread]
  exact hperm.eq_of_pairwise (fun _ _ _ _ hlt hgt => absurd hlt hgt.not_gt) h.1 h'.1

/-! ### Programs that change or repeat themselves, and placed words -/

/-- Settles O30: the two bytes at the next `pc` are the stored `v[0]` and `v[1]`. -/
theorem storedInstructionIsFetchedNext : Obligations.StoredInstructionIsFetchedNext := by
  intro s t x hwf hfetch hI hx h
  obtain ⟨-, ht⟩ := exec_stRegs_next h
  have hpc : t.pc.toNat = s.I.toNat := by rw [hI, ← s.advance_pc_toNat (by omega), ht]; rfl
  have hmem : t.mem = s.mem.store s.I.toNat ((regsUpTo x).map s.reg) := congrArg State.mem ht
  have hstored {k : Reg} (hk : k ≤ x) := Memory.read_store_regs hwf s.I.toNat hk s.reg
  rw [fetchIsBigEndianAndGuarded.1, hpc, hmem]
  exact congrArg₂ (fun hi lo : Byte => 0x100 * hi.toNat + lo.toNat) (hstored (Fin.zero_le x)) (hstored (k := 1) hx)

/-- Settles O31: the 12 bits of a `pc` inside memory are all of it, so the jump sets `pc` to itself. -/
theorem jumpToSelfIsAFixedPoint : Obligations.JumpToSelfIsAFixedPoint := by
  intro s hw hat
  simp only [State.atJumpToSelf, Bool.and_eq_true, decide_eq_true_eq, beq_iff_eq] at hat
  obtain ⟨hfetch, hword⟩ := hat
  have htarget : zextAddr (s.pc.setWidth 12) = s.pc := by
    apply BitVec.eq_of_toNat_eq
    rw [zextAddr_toNat, BitVec.toNat_setWidth]
    exact Nat.mod_eq_of_lt (by omega)
  have hd : decodeWord (s.wordAt s.pc.toNat) = some (.jp (s.pc.setWidth 12)) := by
    rw [hword, decodeOfEncodeIsTheInstruction]
  exact (stepRunsTheDecodedInstruction s _ hfetch hw hd).1 _
    (congrArg (fun a => Host.Outcome.next (s.tickTimers.setPc a)) htarget)

/-- A table word is decoded as the word its two bytes make. -/
theorem decodeTableWord_eq (nbits w : Nat) :
    decodeTableWord nbits w = decodeWord (BitVec.ofNat 16 (w % 2 ^ nbits)) := by
  have h := decodeBytes_bytesOfWord (BitVec.ofNat 16 (w % 2 ^ nbits)) []
  rw [List.append_nil] at h
  rw [decodeTableWord, h]
  cases decodeWord (BitVec.ofNat 16 (w % 2 ^ nbits)) <;> rfl

theorem State.placeWord_pc_fetchable (s : State) (w : Word) : (s.placeWord w).pc.toNat + 1 ≤ 0xFFF := by
  simp only [State.placeWord]
  split
  · decide
  · omega

/-- A placed word is the one at `pc`, high byte first (20_memory.md R55). -/
theorem State.wordAt_placeWord {s : State} (h : s.mem.wf) (w : Word) :
    (s.placeWord w).wordAt (s.placeWord w).pc.toNat = w := by
  have hbyte {k : Nat} (hk : k < 2) := Memory.read_store_add h (s.placeWord w).pc.toNat (bs := bytesOfWord w) hk
  exact (congrArg₂ wordOfBytes (hbyte (k := 0) (by decide)) (hbyte (k := 1) (by decide))).trans
    (wordOfBytes_hiByte_loByte w)

/-- Settles O32: the placed word meets the premises of a step that runs it. -/
theorem placedWordRunsNext : Obligations.PlacedWordRunsNext := by
  intro s w i hwf hd
  have hfetched : decodeWord ((s.withFetchWord 16 w).wordAt (s.withFetchWord 16 w).pc.toNat) = some i := by
    rw [State.withFetchWord, State.wordAt_placeWord hwf, ← decodeTableWord_eq, hd]
  exact stepRunsTheDecodedInstruction (s.withFetchWord 16 w) i (s.placeWord_pc_fetchable _) rfl hfetched

end Sys2Proof.Machine
end

section
/-! PROOFS. The draw `Dxyn` (45_display.md R151, R152). The nested loops of `drawSprite` are one pass over the cells under
the 1 bits of the sprite; these are distinct, since a sprite is narrower and lower than the screen, so each is inverted
once and the collision is that of the framebuffer before the draw. -/

namespace Sys2Proof.Machine

/-! ### A pass over distinct cells -/

/-- Note a collision at a cell, then invert it. -/
def invertCell (c : Canvas) (p : Fin 32 × Fin 64) : Canvas := (c.1.flip p.1 p.2, c.2 || c.1.cell p.1 p.2)

/-- Inverting distinct cells in turn inverts each once and no other. -/
theorem cell_foldl_invertCell {l : List (Fin 32 × Fin 64)} (h : l.Nodup) (c : Canvas) (row : Fin 32) (col : Fin 64) :
    (l.foldl invertCell c).1.cell row col = if (row, col) ∈ l then !c.1.cell row col else c.1.cell row col := by
  induction l generalizing c with
  | nil => simp
  | cons p l ih =>
    obtain ⟨hp, hl⟩ := List.nodup_cons.mp h
    rw [List.foldl_cons, ih hl, invertCell, Framebuffer.cell_flip]
    by_cases hhere : (row, col) = p
    · subst hhere; simp [hp]
    · have hother : ¬ (row = p.1 ∧ col = p.2) := fun ⟨hrow, hcol⟩ => hhere (Prod.ext hrow hcol)
      simp [hhere, hother]

/-- A collision is a lit cell among those inverted, as the framebuffer was before. -/
theorem collision_foldl_invertCell {l : List (Fin 32 × Fin 64)} (h : l.Nodup) (c : Canvas) :
    (l.foldl invertCell c).2 = true ↔ c.2 = true ∨ ∃ p ∈ l, c.1.cell p.1 p.2 = true := by
  induction l generalizing c with
  | nil => simp
  | cons p l ih =>
    obtain ⟨hp, hl⟩ := List.nodup_cons.mp h
    have hkeep : ∀ q ∈ l, (c.1.flip p.1 p.2).cell q.1 q.2 = c.1.cell q.1 q.2 := by
      intro q hq
      rw [Framebuffer.cell_flip, if_neg]
      rintro ⟨hrow, hcol⟩
      exact hp (Prod.ext hrow hcol ▸ hq)
    rw [List.foldl_cons, ih hl, List.exists_mem_cons_iff, ← or_assoc]
    refine or_congr Bool.or_eq_true_iff (exists_congr fun q => and_congr_right fun hq => ?_)
    rw [invertCell, hkeep q hq]

/-! ### The cells of a sprite -/

/-- The places of the 1 bits of a sprite, row and column within it, in the order they are drawn. -/
def spriteBits (m : Memory) (base n : Nat) : List (Nat × Nat) :=
  (List.range n ×ˢ List.range 8).filter fun p => (m.read (base + p.1)).getLsbD (7 - p.2)

theorem mem_spriteBits {m : Memory} {base k : Nat} {p : Nat × Nat} :
    p ∈ spriteBits m base k ↔ (p.1 < k ∧ p.2 < 8) ∧ (m.read (base + p.1)).getLsbD (7 - p.2) = true := by
  rw [spriteBits, List.mem_filter, List.mem_product, List.mem_range, List.mem_range]

/-- The cell a place of the sprite falls on, wrapping. -/
def spriteCell (cx cy : Nat) (p : Nat × Nat) : Fin 32 × Fin 64 := (wrapRow (cy + p.1), wrapCol (cx + p.2))

/-- A draw is one pass over the cells under its 1 bits. -/
theorem drawSprite_eq_foldl (m : Memory) (cx cy base n : Nat) (c : Canvas) :
    drawSprite m cx cy base n c = ((spriteBits m base n).map (spriteCell cx cy)).foldl invertCell c := by
  simp only [spriteBits, List.foldl_map, List.foldl_filter, SProd.sprod, List.product, List.foldl_flatMap]
  rfl

/-- No two places of a sprite fall on one cell. -/
theorem spriteCell_inj {cx cy : Nat} {p q : Nat × Nat} (hp : p.1 < 32 ∧ p.2 < 64) (hq : q.1 < 32 ∧ q.2 < 64)
    (h : spriteCell cx cy p = spriteCell cx cy q) : p = q := by
  have hrow : (cy + p.1) % 32 = (cy + q.1) % 32 := congrArg (fun c : Fin 32 × Fin 64 => c.1.val) h
  have hcol : (cx + p.2) % 64 = (cx + q.2) % 64 := congrArg (fun c : Fin 32 × Fin 64 => c.2.val) h
  exact Prod.ext (by omega) (by omega)

/-- The cells `Dxyn` inverts. -/
def State.spriteCells (s : State) (x y : Reg) (n : Nibble) : List (Fin 32 × Fin 64) :=
  (spriteBits s.mem s.I.toNat n.toNat).map (spriteCell (s.reg x).toNat (s.reg y).toNat)

section
variable (s : State) (x y : Reg) (n : Nibble)

theorem nodup_spriteCells : (s.spriteCells x y n).Nodup := by
  have hn := n.isLt
  refine List.Nodup.map_on (fun p hp q hq => ?_) ((List.nodup_range.product List.nodup_range).filter _)
  obtain ⟨hp, -⟩ := mem_spriteBits.mp hp
  obtain ⟨hq, -⟩ := mem_spriteBits.mp hq
  exact spriteCell_inj (by omega) (by omega)

/-- They are those the statements speak of. -/
theorem mem_spriteCells (row : Fin 32) (col : Fin 64) :
    (row, col) ∈ s.spriteCells x y n ↔ s.spriteCovers x y n row col := by
  simp only [State.spriteCells, State.spriteCovers, List.mem_map, mem_spriteBits, Prod.exists, spriteCell, Prod.mk.injEq,
    Fin.ext_iff, wrapRow_val, wrapCol_val]
  refine exists_congr fun r => exists_congr fun b => ?_
  constructor
  · rintro ⟨⟨⟨hr, hb⟩, hbit⟩, hrow, hcol⟩; exact ⟨hr, hb, hrow.symm, hcol.symm, hbit⟩
  · rintro ⟨hr, hb, hrow, hcol, hbit⟩; exact ⟨⟨⟨hr, hb⟩, hbit⟩, hrow.symm, hcol.symm⟩

theorem drawn_cell (row : Fin 32) (col : Fin 64) :
    (s.drawn x y n).1.cell row col =
      if (row, col) ∈ s.spriteCells x y n then !s.fb.cell row col else s.fb.cell row col := by
  rw [State.drawn, drawSprite_eq_foldl]
  exact cell_foldl_invertCell (nodup_spriteCells s x y n) (s.fb, false) row col

theorem drawn_collision :
    (s.drawn x y n).2 = true ↔ ∃ row col, s.spriteCovers x y n row col ∧ s.fb.cell row col = true := by
  rw [State.drawn, drawSprite_eq_foldl]
  refine (collision_foldl_invertCell (nodup_spriteCells s x y n) (s.fb, false)).trans ?_
  simp only [Bool.false_eq_true, false_or, Prod.exists, mem_spriteCells]

theorem flagByte_eq_one_iff (b : Bool) : flagByte b = 1 ↔ b = true := by cases b <;> decide

/-- The state a draw leaves. -/
def State.afterDraw : State :=
  ({ s.setReg 15 (flagByte (s.drawn x y n).2) with fb := (s.drawn x y n).1 } : State).advance

@[simp] theorem afterDraw_fb : (s.afterDraw x y n).fb = (s.drawn x y n).1 := rfl
@[simp] theorem afterDraw_mem : (s.afterDraw x y n).mem = s.mem := rfl
@[simp] theorem afterDraw_I : (s.afterDraw x y n).I = s.I := rfl

@[simp] theorem afterDraw_reg (r : Reg) :
    (s.afterDraw x y n).reg r = if r = 15 then flagByte (s.drawn x y n).2 else s.reg r :=
  s.reg_setReg 15 r (flagByte (s.drawn x y n).2)

theorem afterDraw_flag_eq_one :
    (s.afterDraw x y n).reg 15 = 1 ↔ ∃ row col, s.spriteCovers x y n row col ∧ s.fb.cell row col = true := by
  rw [afterDraw_reg, if_pos rfl, flagByte_eq_one_iff, drawn_collision]

/-- With the old framebuffer put back, a draw has written `VF` and advanced `pc`. -/
theorem frame_afterDraw : Frame s { s.afterDraw x y n with fb := s.fb } [15] :=
  s.frame_setReg_advance 15 (flagByte (s.drawn x y n).2)

/-- A draw that is not refused leaves that state. -/
theorem exec_drw_eq_next {t : State} :
    exec (.drw x y n) s = .next t ↔ (n.toNat = 0 ∨ s.I.toNat + n.toNat ≤ 0x1000) ∧ t = s.afterDraw x y n :=
  ⟨exec_drw_next, fun ⟨hfits, ht⟩ => ht ▸ guardRange_of_fits hfits⟩

/-- A draw that keeps its coordinates is followed by one over the same cells. -/
theorem spriteCells_afterDraw {x y : Reg} (hx : x ≠ 15) (hy : y ≠ 15) :
    (s.afterDraw x y n).spriteCells x y n = s.spriteCells x y n := by
  simp [State.spriteCells, hx, hy]

/-- The cell under bit `c.2`, counted from the right, of sprite byte `c.1`. -/
def bitCell (c : Fin n.toNat × Fin 8) : Fin 32 × Fin 64 :=
  spriteCell (s.reg x).toNat (s.reg y).toNat (c.1.val, 7 - c.2.val)

theorem bitCell_injective : Function.Injective (bitCell s x y n) := by
  intro c d h
  have hinside (e : Fin n.toNat × Fin 8) : e.1.val < 32 ∧ 7 - e.2.val < 64 := by have := n.isLt; omega
  have hplace := spriteCell_inj (hinside c) (hinside d) h
  simp only [Prod.mk.injEq] at hplace
  exact Prod.ext (Fin.ext hplace.1) (Fin.ext (by omega))

theorem spriteCovers_iff_bitCell (row : Fin 32) (col : Fin 64) :
    s.spriteCovers x y n row col ↔ ∃ c : Fin n.toNat × Fin 8,
      (s.mem.read (s.I.toNat + c.1.val)).getLsbD c.2.val = true ∧ bitCell s x y n c = (row, col) := by
  simp only [← mem_spriteCells, State.spriteCells, List.mem_map, mem_spriteBits]
  constructor
  · rintro ⟨⟨r, b⟩, ⟨⟨hr, hb⟩, hbit⟩, hcell⟩
    have hback : 7 - (7 - b) = b := by dsimp only at hb; omega
    exact ⟨(⟨r, hr⟩, ⟨7 - b, by omega⟩), hbit, by simpa only [bitCell, hback] using hcell⟩
  · rintro ⟨⟨r, k⟩, hbit, hcell⟩
    have hback : 7 - (7 - k.val) = k.val := by omega
    exact ⟨(r.val, 7 - k.val), ⟨⟨r.isLt, by dsimp only; omega⟩, by simpa only [hback] using hbit⟩, hcell⟩

end

/-! ### `Dxyn` -/

/-- Settles O53, by the two answers of the bounds check. -/
theorem drwInvertsTheSpriteCells : Obligations.DrwInvertsTheSpriteCells := by
  intro x y n s
  refine ⟨encodeRegReg_toNat_digits 0xD x y n, fun hfits => ?_, fun hpos hbeyond => ?_⟩
  · refine ⟨s.afterDraw x y n, (exec_drw_eq_next s x y n).mpr ⟨by omega, rfl⟩,
      fun row col => ⟨fun hin => ?_, fun hout => ?_⟩, (afterDraw_flag_eq_one s x y n).mpr, fun hunlit => ?_, rfl,
      frame_afterDraw s x y n⟩
    · rw [afterDraw_fb, drawn_cell, if_pos ((mem_spriteCells s x y n row col).mpr hin)]
    · rw [afterDraw_fb, drawn_cell, if_neg (mt (mem_spriteCells s x y n row col).mp hout)]
    · rw [afterDraw_reg, if_pos rfl]
      exact (flagByte_eq_zero_or_one _).resolve_right
        (mt ((flagByte_eq_one_iff _).trans (drawn_collision s x y n)).mp hunlit)
  · exact exec_drw_eq_fault.mpr ⟨⟨hpos, hbeyond⟩, rfl⟩

/-- Settles O54: both draws invert the same cells, and what the first left lit was unlit before. -/
theorem drawingTwiceRestores : Obligations.DrawingTwiceRestores := by
  intro x y n s t hx hy h
  obtain ⟨hfits, rfl⟩ := (exec_drw_eq_next s x y n).mp h
  have hcells := spriteCells_afterDraw s n hx hy
  refine ⟨(s.afterDraw x y n).afterDraw x y n, (exec_drw_eq_next _ x y n).mpr ⟨hfits, rfl⟩, ?_, ?_⟩
  · refine Framebuffer.ext_cell fun row col => ?_
    rw [afterDraw_fb, drawn_cell, hcells, afterDraw_fb, drawn_cell]
    split <;> simp
  · rw [afterDraw_flag_eq_one]
    refine exists_congr fun row => exists_congr fun col => ?_
    rw [← mem_spriteCells, ← mem_spriteCells, hcells, afterDraw_fb, drawn_cell]
    refine and_congr_right fun hin => ?_
    rw [if_pos hin, Bool.not_eq_true']

/-- Settles O55: the cells that change are the image of the sprite's 1 bits, which fall on distinct cells. -/
theorem drawChangesOneCellPerSpriteBit : Obligations.DrawChangesOneCellPerSpriteBit := by
  intro x y n s t h
  obtain ⟨-, rfl⟩ := (exec_drw_eq_next s x y n).mp h
  have hchanged (row : Fin 32) (col : Fin 64) :
      (s.afterDraw x y n).fb.cell row col ≠ s.fb.cell row col ↔ s.spriteCovers x y n row col := by
    rw [afterDraw_fb, drawn_cell, ← mem_spriteCells]
    split <;> simp [*]
  rw [← Finset.card_image_of_injective _ (bitCell_injective s x y n)]
  congr 1
  ext ⟨row, col⟩
  simp only [Finset.mem_filter, Finset.mem_univ, true_and, Finset.mem_image, hchanged, spriteCovers_iff_bitCell]

end Sys2Proof.Machine
end
